-- ==== Sys2Proof/Word.lean ====
section
/-! DEFINITION. The 32-bit word: the width of every port word, register and memory word (00_scope R8 `WORD_W`, R10). -/

namespace Sys2Proof

/-- One 32-bit word; bit 0 is the least significant (R10). A binary32 pattern is a word too (R11 `f32`). -/
abbrev Word := BitVec 32

end Sys2Proof
end

