-- ==== Sys2Proof/Config.lean ====
section
/-! DEFINITION. What an implementation of the block fixes and the spec leaves open (00_scope R8, 10_state R44), and the
free values. None of the opaque constants has a body, so no proof can see a value of one. -/

namespace Sys2Proof

/-- The open parameters of the block, as arguments of the shared operations (00_scope R8). The machine runs at
`Config.params`; tests may run an operation at parameters of their own. -/
structure Params where
  /-- `MAX_COEFFICIENTS`: how many words the coefficient table memory holds. -/
  maxCoefficients : Nat
  /-- `MAX_CHANNELS`: the largest channel count CONFIG accepts. -/
  maxChannels : Nat
  /-- `coefGen` (40_construct R101): input rate, output rate, number of rows, exact phase increment, cutoff pattern and
  tap count give a row-major table; the last argument is the address of one coefficient in it. That the table has exactly
  `numRows * tapCount` words (`GEN_SHAPE`, R102) is how the table is read: at those addresses only. -/
  coefGen : Int → Int → Nat → Rat → Word → Nat → Nat → Word
  /-- The raw draw behind a NaN result (43_read_mac R154): which READ since power-on, and which channel. -/
  nanDraw : Nat → Nat → Word

/-- The largest tap count that leaves two rows: `MAX_TAPS = 4 * floor(MAX_COEFFICIENTS / 8)` (R8). -/
def Params.maxTaps (p : Params) : Nat := 4 * (p.maxCoefficients / 8)

/-- The constraints R8 puts on the parameters; that `MAX_COEFFICIENTS` fits its 32-bit register (R32) is DEDUCED, entry 5. -/
def Params.ok (p : Params) : Prop :=
  8 ≤ p.maxCoefficients ∧ p.maxCoefficients < 2 ^ 32 ∧ 1 ≤ p.maxChannels ∧ p.maxChannels ≤ 65535

/-- Open: any natural number; `maxCoefficients` brings it into the range R8 gives. -/
opaque Config.rawMaxCoefficients : Nat

/-- `MAX_COEFFICIENTS` of this implementation: an unknown number from 8 to 2^32 - 1 (R8; entry 5). -/
def Config.maxCoefficients : Nat := 8 + Config.rawMaxCoefficients % (2 ^ 32 - 8)

/-- Open: any natural number; `maxChannels` brings it into the range R8 gives. -/
opaque Config.rawMaxChannels : Nat

/-- `MAX_CHANNELS` of this implementation: an unknown number from 1 to 65535 (R8; entry 6). -/
def Config.maxChannels : Nat := 1 + Config.rawMaxChannels % 65535

/-- The coefficient generator of this implementation (40_construct R101): total, of its arguments only, unknown (entry 7). -/
opaque Config.coefGen : Int → Int → Nat → Rat → Word → Nat → Nat → Word

/-- The free value behind NaN results (43_read_mac R154, 93 U2; entry 8). -/
opaque Config.nanDraw : Nat → Nat → Word

/-- Open: any rational; `rowSumTol` makes it non-negative. -/
opaque Config.rawRowSumTol : Rat

/-- `ROW_SUM_TOL` (R8): an unknown real at least 0. Only a claim about `GEN_UNITY` reads it (entry 22). -/
def Config.rowSumTol : Rat := if Config.rawRowSumTol < 0 then -Config.rawRowSumTol else Config.rawRowSumTol

/-- The parameters of this implementation, all four unknown. -/
def Config.params : Params where
  maxCoefficients := Config.maxCoefficients
  maxChannels := Config.maxChannels
  coefGen := Config.coefGen
  nanDraw := Config.nanDraw

end Sys2Proof
end

