-- ==== Sys2Proof/Machine/Memory.lean ====
section
/-! DEFINITION. A word memory: `COEF` and `HIST` are arrays of indivisible 32-bit words (20_memory R50, R55). -/

namespace Sys2Proof.Machine

/-- One word at a word address. The block has no bytes (R55), so a cell holds a word. -/
abbrev WordCell := Nat × Word

/-- A memory: the words that have been written, by strictly rising address. An address that is not listed has no value
(10_state R42 "unspecified"; entry 10). -/
abbrev Memory := List WordCell

/-- The word at an address, or none where nothing has been written. -/
def memoryRead : Memory → Nat → Option Word
  | [], _ => none
  | (k, v) :: rest, a => if a = k then some v else memoryRead rest a

/-- Write one word, keeping the addresses strictly rising. -/
def memoryWrite : Memory → Nat → Word → Memory
  | [], a, w => [(a, w)]
  | (k, v) :: rest, a, w =>
    if a < k then (a, w) :: (k, v) :: rest
    else if a = k then (a, w) :: rest
    else (k, v) :: memoryWrite rest a w

/-- The canonical form: addresses strictly rising, so that equal memories are equal lists. (No entry can equal what an
unlisted address reads as, since that is no value.) -/
def memoryWf : Memory → Bool
  | [] => true
  | [_] => true
  | (k, _) :: (k', v') :: rest => decide (k < k') && memoryWf ((k', v') :: rest)

end Sys2Proof.Machine
end

