-- ==== Sys2Proof/Syntax.lean ====
section
/-! DEFINITION. The commands (30_encoding R71, R76): one constructor per row of spec/opcode_table.json. -/

namespace Sys2Proof

/-- What every command carries beside its opcode (R70, R71): the fields `RSV` and `ARG` of its header word and its payload.
The field `LEN` is the payload's length. -/
structure CmdBody where
  rsv : BitVec 4
  arg : BitVec 8
  pay : List Word
  deriving DecidableEq, Repr

/-- A command. The header fields stay on it because each command's own first check reads them (R79; entry 16). -/
inductive Instr where
  | nop (b : CmdBody)
  | config (b : CmdBody)
  | push (b : CmdBody)
  | read (b : CmdBody)
  | advance (b : CmdBody)
  | consume (b : CmdBody)
  | rdreg (b : CmdBody)
  | reset (b : CmdBody)
  /-- Opcodes 0x8 to 0xF (R78); `opc` is the opcode. -/
  | reserved (opc : BitVec 4) (b : CmdBody)
  deriving DecidableEq, Repr

/-- The fields and payload of a command. -/
def Instr.body : Instr → CmdBody
  | .nop b | .config b | .push b | .read b | .advance b | .consume b | .rdreg b | .reset b | .reserved _ b => b

/-- One line of the spec's textual form (R83), with its operands already read as words. -/
inductive AsmLine where
  | nop
  | config (inputRate outputRate channelCount tapCount cutoff : Word)
  | push (samples : List Word)
  | read
  | advance
  | consume
  | rdreg (index : BitVec 8)
  | reset
  /-- `.word w`: one raw word. -/
  | raw (w : Word)
  deriving DecidableEq, Repr

/-- The pseudo-instructions (R84). -/
inductive Pseudo where
  | feed (samples : List Word)
  | step
  | prime (samples : List Word)
  deriving DecidableEq, Repr

end Sys2Proof
end

