-- ==== Sys2Proof/Machine/State.lean ====
section
/-! DEFINITION. The state of the block (10_state R20 to R42), the status codes, and the reasons a step can stop. -/

namespace Sys2Proof.Machine

/-- What the driver does at the block's ports (70_reset_and_hazards R220), in the order in which it does it (entry 2). -/
inductive PortEvent where
  /-- The driver offers a command word, until the block accepts it (`cmd_valid`, `cmd_ready`). -/
  | cmdWord (w : Word)
  /-- The driver accepts one response word (`rsp_valid`, `rsp_ready`). -/
  | rspTaken
  /-- The driver asserts the hardware reset input `rst` and releases it (R210). -/
  | rst
  deriving DecidableEq, Repr

/-- The status codes of a response (60_exceptions R182). -/
inductive Status where
  | ok
  | errIllegal
  | errLength
  | errState
  | errConfig
  | errPhase
  | errFaulted
  | faultInvariant
  | errReg
  deriving DecidableEq, Repr

/-- The two internal memories (20_memory R50). -/
inductive Space where
  | coef
  | hist
  deriving DecidableEq, Repr

/-- The complete state of the block, element by element as 10_state R20 lists it. The parameters of R44 are no fields of it:
the open constants and functions are in Config, and the command sequence of the run is an input (`State.port`, entry 2). -/
structure Block where
  /-- R23: an engine instance exists. -/
  cfgValid : Bool
  /-- R23: an invariant violation has been detected; also the level of the `fault` output (60_exceptions R192). -/
  fault : Bool
  /-- R25 -/
  inRate : Word
  /-- R25 -/
  outRate : Word
  /-- R24: `C` -/
  chCount : Word
  /-- R26: `T` -/
  tapCount : Word
  /-- R27 -/
  cutoff : Word
  /-- R28: `N`, the guard row included -/
  numRows : Word
  /-- R29: `NUM` -/
  numerator : Word
  /-- R29: `DEN` -/
  denominator : Word
  /-- R31: `L` -/
  histLen : Word
  /-- R34 -/
  phase : Word
  /-- R35 -/
  cursor : Word
  /-- R36: bits 3:0 of `FAULT_CAUSE`; bits 31:4 have no storage and read 0 (entry 19) -/
  faultCause : BitVec 4
  /-- R39 -/
  coef : Memory
  /-- R40 -/
  hist : Memory
  /-- R41: the words of a command that has begun and is not complete -/
  partialCmd : List Word
  deriving DecidableEq, Repr

/-- What the machine steps on: the block, and beside it the two word streams at its ports (20_memory R54) and one counter of
the model's own. -/
structure State extends Block where
  /-- What the driver does next at the ports, first first: the command stream of 20_memory R54 and the driver's other
  actions. An input of the run and no state of the block: what is left of the command sequence that 10_state R44 calls a
  parameter, carried here because a step has no other argument (entry 2). -/
  port : List PortEvent
  /-- The response stream of 20_memory R54: the words produced and not yet taken, oldest first (entry 3). -/
  rsp : List Word
  /-- THE MODEL'S OWN: how many READs have been answered `OK`; it selects the free values of NaN results (entry 8). -/
  nanReads : Nat
  deriving DecidableEq, Repr

/-- Why the machine stops. Every one is raised only in a state that no run from reset reaches, and every one is safe. -/
inductive Fault where
  /-- Raised by an access of CONFIG, PUSH or READ to an address outside the capacity of its memory (20_memory R50): no such
  word exists. Safe: the machine stops (entry 12). -/
  | noSuchWord (sp : Space) (a : Nat)
  /-- Raised by READ at a word that no command has written: its value is unspecified (10_state R42). Safe: the machine
  stops (entry 10). -/
  | unwrittenWord (sp : Space) (a : Nat)
  /-- Raised by PUSH, READ or ADVANCE where the arithmetic of 00_scope R11 has no meaning: a division by zero, a negative
  operand, a 32-bit register asked to hold more than 32 bits. Safe: the machine stops (entry 15). -/
  | undefinedArithmetic
  deriving DecidableEq, Repr

/-- Why the model has no meaning for a command. -/
inductive Refusal where
  /-- Raised by the dispatcher for a command that has no meaning yet; safe. No arm raises it now. -/
  | notModelled (mnemonic : String)
  deriving DecidableEq, Repr

/-- The outcome of a command or of a step. -/
abbrev Result := Host.Outcome State Fault Refusal

/-- The state after reset (10_state R42): no instance, every register 0, nothing written in either memory, an empty
decoder. The two streams are empty: nothing has been presented and nothing answered (entries 2, 3, 8). -/
def State.reset : State where
  cfgValid := false
  fault := false
  inRate := 0
  outRate := 0
  chCount := 0
  tapCount := 0
  cutoff := 0
  numRows := 0
  numerator := 0
  denominator := 0
  histLen := 0
  phase := 0
  cursor := 0
  faultCause := 0
  coef := []
  hist := []
  partialCmd := []
  port := []
  rsp := []
  nanReads := 0

end Sys2Proof.Machine
end

