-- ==== Sys2Proof/Machine/Flags.lean ====
section
/-! DEFINITION. The flags, `STATUS`, the status codes and the response header. -/

namespace Sys2Proof.Machine

/-- The derived flag `WRITE_NEEDED = CFG_VALID and PHASE >= DENOMINATOR` (10_state R23). -/
def writeNeeded (s : State) : Bool := s.cfgValid && decide (s.denominator.toNat ≤ s.phase.toNat)

/-- The `fault` output: the level of the flag `FAULT` (60_exceptions R192). -/
def faultOutput (s : State) : Bool := s.fault

/-- The three flag bits `WRITE_NEEDED`, `FAULT`, `CFG_VALID`, most significant first: bits 2:0 of `STATUS` (10_state R37)
and bits 18:16 of a response header (30_encoding R73, R74). -/
def flagBits (s : State) : BitVec 3 :=
  BitVec.ofBool (writeNeeded s) ++ BitVec.ofBool s.fault ++ BitVec.ofBool s.cfgValid

/-- Register `STATUS` (10_state R37). -/
def statusWord (s : State) : Word := 0#29 ++ flagBits s

/-- The code of a status in the field `ST` (60_exceptions R182). -/
def statusCode : Status → BitVec 4
  | .ok => 0x0
  | .errIllegal => 0x1
  | .errLength => 0x2
  | .errState => 0x3
  | .errConfig => 0x4
  | .errPhase => 0x5
  | .errFaulted => 0x6
  | .faultInvariant => 0x7
  | .errReg => 0x8

/-- A response header (30_encoding R73): `OPC` 31:28, `ST` 27:24, zero 23:19, `WN` 18, `FL` 17, `CV` 16, `RLEN` 15:0, with
the flags of the state `s` that the command leaves (R74). -/
def rspHeader (opc : BitVec 4) (st : Status) (s : State) (rlen : Nat) : Word :=
  opc ++ statusCode st ++ 0#5 ++ flagBits s ++ BitVec.ofNat 16 rlen

end Sys2Proof.Machine
end

