-- ==== Sys2Proof/Machine/Operands.lean ====
section
/-! DEFINITION. Operand forms: how a payload word or the field `ARG` is read (30_encoding R80), and the register index
space that `ARG` of RDREG selects from (10_state R33). -/

namespace Sys2Proof.Machine

/-- Payload word `k`. The commands that read one have checked the payload's length first. -/
def payWord (pay : List Word) (k : Nat) : Word := pay.getD k 0

/-- A payload word read as `i32`, two's complement (R80). -/
def payInt (pay : List Word) (k : Nat) : Int := (payWord pay k).toInt

/-- The register at an index (10_state R33): none for the reserved indices 0x10 to 0xFF. -/
def readRegister (p : Params) (index : BitVec 8) (s : State) : Option Word :=
  match index.toNat with
  | 0x00 => some (statusWord s)
  | 0x01 => some s.inRate
  | 0x02 => some s.outRate
  | 0x03 => some s.chCount
  | 0x04 => some s.tapCount
  | 0x05 => some s.cutoff
  | 0x06 => some s.numRows
  | 0x07 => some (if s.cfgValid then s.numRows - 1 else 0)
  | 0x08 => some s.numerator
  | 0x09 => some s.denominator
  | 0x0A => some s.phase
  | 0x0B => some s.cursor
  | 0x0C => some s.histLen
  | 0x0D => some (0#28 ++ s.faultCause)
  | 0x0E => some (BitVec.ofNat 32 p.maxCoefficients)
  | 0x0F => some (BitVec.ofNat 32 p.maxChannels)
  | _ => none

end Sys2Proof.Machine
end

