-- ==== Sys2Proof/Machine/Ops.lean ====
section
/-! DEFINITION. The operations the commands share: memory accesses, the response, the protocol checks, raising an error,
entering the fault state, and destroying the instance. -/

namespace Sys2Proof.Machine

/-- The words of a memory that exist (20_memory R50): `MAX_COEFFICIENTS` for `COEF`, `MAX_TAPS * MAX_CHANNELS` for `HIST`. -/
def capacity (p : Params) : Space → Nat
  | .coef => p.maxCoefficients
  | .hist => p.maxTaps * p.maxChannels

/-- The contents of a memory. -/
def spaceOf (sp : Space) (s : State) : Memory :=
  match sp with
  | .coef => s.coef
  | .hist => s.hist

/-- The state with other contents of one memory. -/
def setSpace (sp : Space) (m : Memory) (s : State) : State :=
  match sp with
  | .coef => { s with coef := m }
  | .hist => { s with hist := m }

/-- `MemRead(S, a, 1)` (00_scope R12). -/
def memRead (p : Params) (sp : Space) (a : Nat) (s : State) : Except Fault Word :=
  if a < capacity p sp then
    match memoryRead (spaceOf sp s) a with
    | some w => .ok w
    | none => .error (.unwrittenWord sp a)
  else .error (.noSuchWord sp a)

/-- `MemWrite(S, a, 1, v)` (00_scope R12). -/
def memWrite (p : Params) (sp : Space) (a : Nat) (v : Word) (s : State) : Except Fault State :=
  if a < capacity p sp then .ok (setSpace sp (memoryWrite (spaceOf sp s) a v) s)
  else .error (.noSuchWord sp a)

/-- Writes of successive words from address `a` up, in that order. -/
def memWriteWords (p : Params) (sp : Space) : Nat → List Word → State → Except Fault State
  | _, [], s => .ok s
  | a, w :: ws, s =>
    match memWrite p sp a w s with
    | .error f => .error f
    | .ok s' => memWriteWords p sp (a + 1) ws s'

/-- Applies a function that may stop to every element, first element first; the first stop is the answer. -/
def forEach {α β : Type} (f : α → Except Fault β) : List α → Except Fault (List β)
  | [] => .ok []
  | a :: as =>
    match f a with
    | .error e => .error e
    | .ok b =>
      match forEach f as with
      | .error e => .error e
      | .ok bs => .ok (b :: bs)

/-- The state with response words added at the end of the response stream (20_memory R54). -/
def State.answer (words : List Word) (s : State) : State := { s with rsp := s.rsp ++ words }

/-- Ends a command: the one response (30_encoding R73) is a header with the flags of the state `s` the command leaves, then
its payload. -/
def respond (opc : BitVec 4) (st : Status) (payload : List Word) (s : State) : Result :=
  .next (s.answer (rspHeader opc st s payload.length :: payload))

/-- `raise E(info)` (60_exceptions R181): no state changes but for the response, which carries the status and `info`. -/
def raiseError (opc : BitVec 4) (e : Status) (info : List Word) (s : State) : Result := respond opc e info s

/-- Fault entry (60_exceptions R193): `FAULT <- 1`, `FAULT_CAUSE <- 1`, nothing else changes, and the response carries
`FAULT_INVARIANT`. The way out is `destroyInstance` (R194). -/
def enterFault (opc : BitVec 4) (s : State) : Result :=
  raiseError opc .faultInvariant [] { s with fault := true, faultCause := 1 }

/-- Every state element takes its reset value (44_system R171, 10_state R42); this is also the only way out of the fault
state (60_exceptions R194). The streams are no state of the block, and the counter of free values only ever rises
(entries 8, 18). -/
def destroyInstance (s : State) : State :=
  { State.reset with port := s.port, rsp := s.rsp, nanReads := s.nanReads }

/-- The hardware reset input (70_reset_and_hazards R210): the reset state, with the partial command discarded and whatever
response words were in flight lost (entry 4). -/
def hardwareReset (s : State) : State := { destroyInstance s with rsp := [] }

/-- In which states a command executes (30_encoding R77). -/
inductive Requires where
  /-- Any `CFG_VALID` and `FAULT`: NOP, RDREG, RESET. -/
  | nothing
  /-- `CFG_VALID` must be 0, and `FAULT` 0: CONFIG. -/
  | noInstance
  /-- `CFG_VALID` must be 1 and `FAULT` 0: PUSH, READ, ADVANCE, CONSUME. -/
  | liveInstance
  deriving DecidableEq, Repr

/-- `ERR_FAULTED` applies (60_exceptions R188). -/
def refusedAsFaulted (req : Requires) (s : State) : Bool := decide (req ≠ .nothing) && s.fault

/-- `ERR_STATE` applies (60_exceptions R185). -/
def refusedByState (req : Requires) (s : State) : Bool :=
  match req with
  | .nothing => false
  | .noInstance => s.cfgValid
  | .liveInstance => !s.cfgValid

/-- The common checks, in the order of 60_exceptions R191: `ERR_ILLEGAL` (30_encoding R79; only RDREG uses `ARG`),
`ERR_FAULTED`, `ERR_STATE`, `ERR_LENGTH`. -/
def protocolError (req : Requires) (usesArg : Bool) (expectedLen : Nat) (b : CmdBody) (s : State) : Option Status :=
  if b.rsv ≠ 0 ∨ (usesArg = false ∧ b.arg ≠ 0) then some .errIllegal
  else if refusedAsFaulted req s then some .errFaulted
  else if refusedByState req s then some .errState
  else if b.pay.length ≠ expectedLen then some .errLength
  else none

/-- A command: the common checks, then its own effect. -/
def command (opc : BitVec 4) (req : Requires) (usesArg : Bool) (expectedLen : Nat) (b : CmdBody) (s : State)
    (effect : Result) : Result :=
  match protocolError req usesArg expectedLen b s with
  | some e => raiseError opc e [] s
  | none => effect

/-- The outcome of an effect that may stop at an access. -/
def orStop {α : Type} (x : Except Fault α) (k : α → Result) : Result :=
  match x with
  | .error f => .fault f
  | .ok a => k a

end Sys2Proof.Machine
end

