-- ==== Sys2Proof/Machine/Construct.lean ====
section
/-! DEFINITION. CONFIG: construct the engine instance (40_construct R100 to R107). -/

namespace Sys2Proof.Machine

/-- One bit of the mask of failed checks. -/
def maskBit (failed : Bool) (bit : Nat) : Word := if failed then 1#32 <<< bit else 0

/-- The mask of failed configuration checks (40_construct R104, 60_exceptions R186): all seven are evaluated. -/
def configErrors (p : Params) (pay : List Word) : Word :=
  maskBit (decide (payInt pay 0 ≤ 0)) 0
  ||| maskBit (decide (payInt pay 1 ≤ 0)) 1
  ||| maskBit (decide (payInt pay 2 ≤ 0)) 2
  ||| maskBit (decide ((p.maxChannels : Int) < payInt pay 2)) 3
  ||| maskBit (decide (payInt pay 3 ≤ 0)) 4
  ||| maskBit (decide ((payWord pay 3).extractLsb' 0 2 ≠ 0)) 5
  ||| maskBit (decide (((p.maxCoefficients / 2 : Nat) : Int) < payInt pay 3)) 6

/-- The coefficient at an address of the table that `coefGen` gives for these options (R101, R104): the phase increment is
the exact rational `1 / (N - 1)` (R105). -/
def tableWord (p : Params) (inRate outRate cutoff numRows taps : Word) (a : Nat) : Word :=
  p.coefGen inRate.toInt outRate.toInt numRows.toNat (1 / ((numRows.toNat : Rat) - 1)) cutoff taps.toNat a

/-- The registers and flags CONFIG writes (R104): `g = gcd(inR, outR)`, `N = MAX_COEFFICIENTS div taps`, `L = T`. -/
def configRegisters (p : Params) (pay : List Word) (s : State) : State :=
  { s with
    cfgValid := true
    inRate := payWord pay 0
    outRate := payWord pay 1
    chCount := payWord pay 2
    tapCount := payWord pay 3
    cutoff := payWord pay 4
    numRows := BitVec.ofNat 32 (p.maxCoefficients / (payWord pay 3).toNat)
    numerator := BitVec.ofNat 32 ((payWord pay 0).toNat / Nat.gcd (payWord pay 0).toNat (payWord pay 1).toNat)
    denominator := BitVec.ofNat 32 ((payWord pay 1).toNat / Nat.gcd (payWord pay 0).toNat (payWord pay 1).toNat)
    histLen := payWord pay 3
    phase := 0
    cursor := 0 }

/-- The whole coefficient table of the configured state, address 0 first (R100, R106). -/
def coefTable (p : Params) (s : State) : List Word :=
  (List.range (s.numRows.toNat * s.tapCount.toNat)).map
    (tableWord p s.inRate s.outRate s.cutoff s.numRows s.tapCount)

/-- The cleared history of the configured state: `+0.0` in every word (R106). -/
def silence (s : State) : List Word := List.replicate (s.tapCount.toNat * s.chCount.toNat) 0

/-- A successful CONFIG (R104, R106): the registers, then every word of `COEF`, then every word of `HIST`. -/
def buildInstance (p : Params) (pay : List Word) (s : State) : Except Fault State :=
  match memWriteWords p .coef 0 (coefTable p (configRegisters p pay s)) (configRegisters p pay s) with
  | .error f => .error f
  | .ok s' => memWriteWords p .hist 0 (silence s') s'

/-- CONFIG after the common checks (R104): a failed check builds nothing (R107). -/
def configEffect (p : Params) (b : CmdBody) (s : State) : Result :=
  if configErrors p b.pay ≠ 0 then raiseError 0x1 .errConfig [configErrors p b.pay] s
  else orStop (buildInstance p b.pay s) (respond 0x1 .ok [])

/-- CONFIG with given parameters. -/
def configWith (p : Params) (b : CmdBody) (s : State) : Result :=
  command 0x1 .noInstance false 5 b s (configEffect p b s)

/-- CONFIG (R104). -/
def execConfig (b : CmdBody) (s : State) : Result := configWith Config.params b s

end Sys2Proof.Machine
end

