-- ==== Sys2Proof/Machine/Float32.lean ====
section
/-! DEFINITION. The binary32 arithmetic of the block (43_read_mac R150 to R154): IEEE 754 binary32, every operation rounded
to nearest, ties to even, with gradual underflow and no flags. An exact result is a rational number; it is formed exactly
and rounded once. Finite values are counted in units of `2^-149`, the smallest subnormal. -/

namespace Sys2Proof.Machine

/-- The sign bit, bit 31 (R150). -/
def f32Sign (w : Word) : Bool := w.msb

/-- The exponent field, bits 30:23 (R150). -/
def f32Exp (w : Word) : Nat := (w.extractLsb' 23 8).toNat

/-- The fraction field, bits 22:0 (R150). -/
def f32Frac (w : Word) : Nat := (w.extractLsb' 0 23).toNat

/-- R150: exponent 255 with non-zero fraction. -/
def f32IsNan (w : Word) : Bool := f32Exp w == 255 && f32Frac w != 0

/-- R150: exponent 255 with fraction 0. -/
def f32IsInf (w : Word) : Bool := f32Exp w == 255 && f32Frac w == 0

/-- Neither an infinity nor a NaN. -/
def f32IsFinite (w : Word) : Bool := f32Exp w != 255

/-- R150: exponent 0 with fraction 0, of either sign. -/
def f32IsZero (w : Word) : Bool := f32Exp w == 0 && f32Frac w == 0

/-- The magnitude of a finite pattern in units of `2^-149`: a subnormal is its fraction, a normal number
`(2^23 + fraction) * 2^(exponent - 1)` (R150, bias 127). -/
def f32Mag (w : Word) : Nat :=
  if f32Exp w = 0 then f32Frac w else (2 ^ 23 + f32Frac w) * 2 ^ (f32Exp w - 1)

/-- The signed value of a finite pattern in units of `2^-149`. -/
def f32Units (w : Word) : Int := if f32Sign w then -(f32Mag w : Int) else (f32Mag w : Int)

/-- `-b`: flips bit 31 (R152). -/
def f32Neg (w : Word) : Word := w ^^^ 0x80000000

/-- The natural number nearest to `n / d`, ties to even. -/
def roundHalfEven (n d : Nat) : Nat :=
  if 2 * (n % d) < d then n / d
  else if d < 2 * (n % d) then n / d + 1
  else n / d + n / d % 2

/-- How many binary places above the units the spacing of binary32 numbers is, at a magnitude whose integer part in units
is `q`: none below `2^24` units, where the spacing is one unit. -/
def f32Shift (q : Nat) : Nat := if q < 2 ^ 24 then 0 else Nat.log2 q - 23

/-- Bits 30:0 of the binary32 number nearest to the non-negative rational `n / d` units, ties to even; an infinity when the
rounded magnitude is `2^128` or more (R151, R152). A significand `m` at spacing `2^k` has the bits `k * 2^23 + m`: the
hidden bit carries into the exponent field, for subnormal, normal and rounded-up significands alike. -/
def f32RoundBits (n d : Nat) : Nat :=
  min (f32Shift (n / d) * 2 ^ 23 + roundHalfEven n (d * 2 ^ f32Shift (n / d))) 0x7F800000

/-- A pattern from its sign and its bits 30:0. -/
def f32Pack (neg : Bool) (bits : Nat) : Word := BitVec.ofNat 32 (bits + if neg then 2 ^ 31 else 0)

/-- An infinity. -/
def f32Inf (neg : Bool) : Word := f32Pack neg 0x7F800000

/-- `f32_mul` (R151, R154). `nan` is the pattern an invalid operation or a NaN operand gives. -/
def f32Mul (nan a b : Word) : Word :=
  if f32IsNan a || f32IsNan b then nan
  else if f32IsInf a || f32IsInf b then
    if f32IsZero a || f32IsZero b then nan else f32Inf (f32Sign a != f32Sign b)
  else f32Pack (f32Sign a != f32Sign b) (f32RoundBits (f32Mag a * f32Mag b) (2 ^ 149))

/-- `f32_add` (R152, R154). `nan` is the pattern an invalid operation or a NaN operand gives. -/
def f32Add (nan a b : Word) : Word :=
  if f32IsNan a || f32IsNan b then nan
  else if f32IsInf a then
    if f32IsInf b && f32Sign a != f32Sign b then nan else a
  else if f32IsInf b then b
  else if f32Units a + f32Units b = 0 then f32Pack (f32Sign a && f32Sign b) 0
  else f32Pack (decide (f32Units a + f32Units b < 0)) (f32RoundBits (f32Units a + f32Units b).natAbs 1)

/-- `f32_sub(a, b) = f32_add(a, -b)` (R152). -/
def f32Sub (nan a b : Word) : Word := f32Add nan a (f32Neg b)

/-- `f32_of_rat(n / d)` for `0 <= n / d < 1` (R153). -/
def f32OfRat (n d : Nat) : Word := f32Pack false (f32RoundBits (n * 2 ^ 149) d)

/-- The NaN a raw draw stands for: the draw itself when it is a NaN, so every NaN pattern is possible, and otherwise a NaN
all the same (R154: "a draw over all NaN patterns"; entry 8). -/
def nanOfDraw (raw : Word) : Word := if f32IsNan raw then raw else 0x7FC00000

end Sys2Proof.Machine
end

