-- ==== Sys2Proof/Machine/History.lean ====
section
/-! DEFINITION. The circular history: PUSH (41_history R121) and the window READ fetches (R122). -/

namespace Sys2Proof.Machine

/-- The `HIST` address of channel `c` of the frame at ring index `f` (20_memory R52). -/
def histAddress (s : State) (f c : Nat) : Nat := f * s.chCount.toNat + c

/-- The cursor after one PUSH: `(CURSOR + 1) mod L` (R121). -/
def nextCursor (s : State) : Word := BitVec.ofNat 32 ((s.cursor.toNat + 1) % s.histLen.toNat)

/-- PUSH after the common checks (R121): the frame's words at the cursor, channel 0 first, then the cursor. -/
def pushEffect (p : Params) (b : CmdBody) (s : State) : Result :=
  if s.histLen.toNat = 0 then .fault .undefinedArithmetic
  else
    orStop (memWriteWords p .hist (histAddress s s.cursor.toNat 0) b.pay s)
      (fun s' => respond 0x2 .ok [] { s' with cursor := nextCursor s })

/-- PUSH with given parameters. -/
def pushWith (p : Params) (b : CmdBody) (s : State) : Result :=
  command 0x2 .liveInstance false s.chCount.toNat b s (pushEffect p b s)

/-- PUSH (R121). -/
def execPush (b : CmdBody) (s : State) : Result := pushWith Config.params b s

/-- The ring index of window frame `j`: `w(j) = (CURSOR + L - T + j) mod L` (R122). -/
def windowIndex (s : State) (j : Nat) : Nat :=
  (s.cursor.toNat + s.histLen.toNat - s.tapCount.toNat + j) % s.histLen.toNat

/-- The arithmetic of `windowIndex` has a meaning: `L` is not 0, and `CURSOR + L - T` is not negative (00_scope R11). -/
def windowDefined (s : State) : Bool :=
  decide (0 < s.histLen.toNat) && decide (s.tapCount.toNat ≤ s.cursor.toNat + s.histLen.toNat)

/-- Channel `c` of window frame `j` (R122). -/
def windowSample (p : Params) (s : State) (c j : Nat) : Except Fault Word :=
  memRead p .hist (histAddress s (windowIndex s j) c) s

end Sys2Proof.Machine
end

