-- ==== Sys2Proof/Machine/Phase.lean ====
section
/-! DEFINITION. The phase accumulator, ADVANCE and CONSUME, and the coefficient selector (42_phase R130 to R142). -/

namespace Sys2Proof.Machine

/-- `PHASE < DENOMINATOR`: the condition of an aligned block (R131). -/
def phaseAligned (s : State) : Bool := decide (s.phase.toNat < s.denominator.toNat)

/-- ADVANCE after the common checks (R132). The sum of an invariant state fits 32 bits (R135). -/
def advanceEffect (s : State) : Result :=
  if phaseAligned s = false then raiseError 0x4 .errPhase [] s
  else if 2 ^ 32 ≤ s.phase.toNat + s.numerator.toNat then .fault .undefinedArithmetic
  else respond 0x4 .ok [] { s with phase := s.phase + s.numerator }

/-- ADVANCE (R132). -/
def execAdvance (b : CmdBody) (s : State) : Result :=
  command 0x4 .liveInstance false 0 b s (advanceEffect s)

/-- CONSUME after the common checks (R133). -/
def consumeEffect (s : State) : Result :=
  if phaseAligned s then raiseError 0x5 .errPhase [] s
  else respond 0x5 .ok [] { s with phase := s.phase - s.denominator }

/-- CONSUME (R133). -/
def execConsume (b : CmdBody) (s : State) : Result :=
  command 0x5 .liveInstance false 0 b s (consumeEffect s)

/-- `P = PHASE * (N - 1)`, the exact table phase times `DEN` (R137). -/
def tablePhaseNum (s : State) : Nat := s.phase.toNat * (s.numRows.toNat - 1)

/-- `indexLow = P div DEN` (R139). -/
def indexLow (s : State) : Nat := tablePhaseNum s / s.denominator.toNat

/-- `rem = P mod DEN` (R139). -/
def phaseRem (s : State) : Nat := tablePhaseNum s % s.denominator.toNat

/-- `indexHigh = indexLow + 1` (R139). -/
def indexHigh (s : State) : Nat := indexLow s + 1

/-- The arithmetic of the selector has a meaning: `N - 1` is not negative and `DEN` is not 0 (00_scope R11). -/
def selectorDefined (s : State) : Bool := decide (0 < s.numRows.toNat) && decide (0 < s.denominator.toNat)

/-- The number of input frames the driver owes: `q = PHASE div DEN` (R134). -/
def framesOwed (s : State) : Nat := s.phase.toNat / s.denominator.toNat

end Sys2Proof.Machine
end

