-- ==== Sys2Proof/Machine/ReadMac.lean ====
section
/-! DEFINITION. READ: the selector, the two convolutions over the window and the interpolation (43_read_mac R145 to R149). -/

namespace Sys2Proof.Machine

/-- The binary32 fraction: `frac = f32_of_rat(rem / DEN)` (42_phase R140). -/
def fraction (s : State) : Word := f32OfRat (phaseRem s) s.denominator.toNat

/-- The NaN this READ gives in channel `c`: fresh for every READ and channel (R154; entry 8). -/
def channelNan (p : Params) (s : State) (c : Nat) : Word := nanOfDraw (p.nanDraw s.nanReads c)

/-- The sequential sum of R147 from an accumulator on: each sample is multiplied by its tap, and each product is rounded and
then added with a rounding of its own. -/
def macFrom (nan : Word) : Word → List Word → List Word → Word
  | acc, sm :: samples, cf :: taps => macFrom nan (f32Add nan acc (f32Mul nan sm cf)) samples taps
  | acc, _, _ => acc

/-- One accumulator after the tap loop: it starts at `+0.0` (R146). -/
def mac (nan : Word) (samples taps : List Word) : Word := macFrom nan 0 samples taps

/-- `low + frac * (high - low)`, three roundings in that order (R148). -/
def interpolate (nan frac low high : Word) : Word := f32Add nan low (f32Mul nan frac (f32Sub nan high low))

/-- The `T` coefficients of table row `r`, tap 0 first (20_memory R51). -/
def coefRow (p : Params) (s : State) (r : Nat) : Except Fault (List Word) :=
  forEach (fun k => memRead p .coef (r * s.tapCount.toNat + k) s) (List.range s.tapCount.toNat)

/-- The `T` samples of channel `c` of the window, window frame 0 first (41_history R122). -/
def window (p : Params) (s : State) (c : Nat) : Except Fault (List Word) :=
  forEach (windowSample p s c) (List.range s.tapCount.toNat)

/-- The output sample of channel `c` from the two rows (R147, R148). -/
def outputSample (p : Params) (s : State) (low high : List Word) (c : Nat) : Except Fault Word :=
  match window p s c with
  | .error f => .error f
  | .ok samples =>
    .ok (interpolate (channelNan p s c) (fraction s) (mac (channelNan p s c) samples low)
      (mac (channelNan p s c) samples high))

/-- The output frame: `C` samples (R145, R162). -/
def outputFrame (p : Params) (s : State) : Except Fault (List Word) :=
  match coefRow p s (indexLow s) with
  | .error f => .error f
  | .ok low =>
    match coefRow p s (indexHigh s) with
    | .error f => .error f
    | .ok high => forEach (outputSample p s low high) (List.range s.chCount.toNat)

/-- READ after the common checks (R145): the invariant comparison, once, before any memory is read; then the frame. The only
change beside the response is the model's own counter of free values. -/
def readEffect (p : Params) (s : State) : Result :=
  if selectorDefined s = false then .fault .undefinedArithmetic
  else if s.numRows.toNat ≤ indexHigh s then enterFault 0x3 s
  else if windowDefined s = false then .fault .undefinedArithmetic
  else orStop (outputFrame p s) (fun out => respond 0x3 .ok out { s with nanReads := s.nanReads + 1 })

/-- READ with given parameters. -/
def readWith (p : Params) (b : CmdBody) (s : State) : Result :=
  command 0x3 .liveInstance false 0 b s (readEffect p s)

/-- READ (R145). -/
def execRead (b : CmdBody) (s : State) : Result := readWith Config.params b s

end Sys2Proof.Machine
end

