-- ==== Sys2Proof/Machine/System.lean ====
section
/-! DEFINITION. The system commands NOP, RDREG, RESET (44_system R170 to R172) and the reserved opcodes (30_encoding R78). -/

namespace Sys2Proof.Machine

/-- NOP (R170). -/
def execNop (b : CmdBody) (s : State) : Result := command 0x0 .nothing false 0 b s (respond 0x0 .ok [] s)

/-- RDREG after the common checks (R172): the register, or `ERR_REG` for a reserved index (60_exceptions R190). -/
def rdregEffect (p : Params) (b : CmdBody) (s : State) : Result :=
  match readRegister p b.arg s with
  | some w => respond 0x6 .ok [w] s
  | none => raiseError 0x6 .errReg [] s

/-- RDREG with given parameters. -/
def rdregWith (p : Params) (b : CmdBody) (s : State) : Result := command 0x6 .nothing true 0 b s (rdregEffect p b s)

/-- RDREG (R172). -/
def execRdreg (b : CmdBody) (s : State) : Result := rdregWith Config.params b s

/-- RESET (R171). -/
def execReset (b : CmdBody) (s : State) : Result :=
  command 0x7 .nothing false 0 b s (respond 0x7 .ok [] (destroyInstance s))

/-- A reserved opcode (30_encoding R78): the payload is ignored and the answer is `ERR_ILLEGAL`, in every state. -/
def execReserved (opc : BitVec 4) (_b : CmdBody) (s : State) : Result := raiseError opc .errIllegal [] s

end Sys2Proof.Machine
end

