-- ==== Sys2Proof/Machine/Dispatch.lean ====
section
/-! DEFINITION. One arm per command. -/

namespace Sys2Proof.Machine

/-- What a complete command does in a state whose decoder has handed it over. -/
def exec (i : Instr) (s : State) : Host.Outcome State Fault Refusal :=
  match i with
  | .nop b => Sys2Proof.Machine.execNop b s
  | .config b => Sys2Proof.Machine.execConfig b s
  | .push b => Sys2Proof.Machine.execPush b s
  | .read b => Sys2Proof.Machine.execRead b s
  | .advance b => Sys2Proof.Machine.execAdvance b s
  | .consume b => Sys2Proof.Machine.execConsume b s
  | .rdreg b => Sys2Proof.Machine.execRdreg b s
  | .reset b => Sys2Proof.Machine.execReset b s
  | .reserved opc b => Sys2Proof.Machine.execReserved opc b s

end Sys2Proof.Machine
end

