-- ==== Sys2Proof/WellFormed.lean ====
section
/-! DEFINITION. Which commands the command format can spell, and which of them the spec calls a command. -/

namespace Sys2Proof

/-- The payload length fits the 16-bit field `LEN` (30_encoding R70, R71). -/
def CmdBody.wf (b : CmdBody) : Bool := decide (b.pay.length < 65536)

/-- A command some word sequence spells: its payload length fits `LEN`, and a reserved opcode is 0x8 to 0xF (R76). -/
def Instr.wf : Instr → Bool
  | .reserved opc b => decide (8 ≤ opc.toNat) && b.wf
  | i => i.body.wf

/-- The header spells a command (R78, R79): a defined opcode, `RSV = 0`, and `ARG = 0` except on RDREG. Every other header
answers `ERR_ILLEGAL` (60_exceptions R183). -/
def Instr.spellsCommand : Instr → Bool
  | .reserved _ _ => false
  | .rdreg b => b.rsv == 0
  | i => i.body.rsv == 0 && i.body.arg == 0

end Sys2Proof
end

