-- ==== Sys2Proof/Decode.lean ====
section
/-! DEFINITION. The command decoder (30_encoding R70 to R85): total on every sequence of words; the encoder written from
the same tables; the assembler forms of R83 and R84. -/

namespace Sys2Proof

/-- Header field `OPC`, bits 31:28 (R71). -/
def headerOpc (h : Word) : BitVec 4 := h.extractLsb' 28 4

/-- Header field `RSV`, bits 27:24 (R71). -/
def headerRsv (h : Word) : BitVec 4 := h.extractLsb' 24 4

/-- Header field `ARG`, bits 23:16 (R71). -/
def headerArg (h : Word) : BitVec 8 := h.extractLsb' 16 8

/-- Header field `LEN`, bits 15:0 (R71): how many payload words follow, read from the header alone (R70). -/
def headerLen (h : Word) : Nat := (h.extractLsb' 0 16).toNat

/-- The opcode map (R76): all sixteen values. -/
def Instr.ofOpcode (opc : BitVec 4) (b : CmdBody) : Instr :=
  match opc.toNat with
  | 0x0 => .nop b
  | 0x1 => .config b
  | 0x2 => .push b
  | 0x3 => .read b
  | 0x4 => .advance b
  | 0x5 => .consume b
  | 0x6 => .rdreg b
  | 0x7 => .reset b
  | _ => .reserved opc b

/-- The opcode of a command (R76). -/
def Instr.opcode : Instr → BitVec 4
  | .nop _ => 0x0
  | .config _ => 0x1
  | .push _ => 0x2
  | .read _ => 0x3
  | .advance _ => 0x4
  | .consume _ => 0x5
  | .rdreg _ => 0x6
  | .reset _ => 0x7
  | .reserved opc _ => opc

/-- Why a word sequence does not begin with a complete command. -/
inductive DecodeReject where
  /-- There is no header word. -/
  | noHeader
  /-- The header's payload has not all arrived (R75); so many words are missing. -/
  | payloadMissing (n : Nat)
  deriving DecidableEq, Repr

/-- Decode the first command of a word sequence and give the words after it (R70, R72, R82, R85). -/
def decode : List Word → Except DecodeReject (Instr × List Word)
  | [] => .error .noHeader
  | h :: ws =>
    if ws.length < headerLen h then .error (.payloadMissing (headerLen h - ws.length))
    else
      .ok (Instr.ofOpcode (headerOpc h)
        { rsv := headerRsv h, arg := headerArg h, pay := ws.take (headerLen h) }, ws.drop (headerLen h))

/-- The header word of a command (R71). -/
def header (i : Instr) : Word :=
  i.opcode ++ i.body.rsv ++ i.body.arg ++ BitVec.ofNat 16 i.body.pay.length

/-- The words of a command: its header, then its payload (R70). -/
def encode (i : Instr) : List Word := header i :: i.body.pay

/-- Splits a word sequence into complete commands and the words of at most one partial command (R85). The first argument
bounds the number of commands. -/
def splitCommands : Nat → List Word → List Instr × List Word
  | 0, ws => ([], ws)
  | n + 1, ws =>
    match decode ws with
    | .error _ => ([], ws)
    | .ok (i, rest) => (i :: (splitCommands n rest).1, (splitCommands n rest).2)

/-- The words of an instruction whose bits, below `nbits`, are those of `w`: the header is the low word, and payload word
`k` is made of the bits from `32 * (k + 1)` up (zero above `nbits`). -/
def tableWords (nbits w : Nat) : List Word :=
  BitVec.ofNat 32 (w % 2 ^ nbits) ::
    (List.range (headerLen (BitVec.ofNat 32 (w % 2 ^ nbits)))).map
      (fun k => BitVec.ofNat 32 ((w % 2 ^ nbits) >>> (32 * (k + 1))))

/-- The command the decoder reads from an opcode-table word. -/
def decodeTableWord (nbits w : Nat) : Option Instr :=
  match decode (tableWords nbits w) with
  | .ok (i, _) => some i
  | .error _ => none

/-- The command with the header fields `RSV = 0` and `ARG = 0`. -/
def plainBody (pay : List Word) : CmdBody := { rsv := 0, arg := 0, pay := pay }

/-- The encodings of the assembler lines, as R83 lists them. -/
def assemble : AsmLine → List Word
  | .nop => [0x00000000]
  | .config inR outR ch taps cut => [0x10000005, inR, outR, ch, taps, cut]
  | .push ss => (0x20000000 + BitVec.ofNat 32 ss.length) :: ss
  | .read => [0x30000000]
  | .advance => [0x40000000]
  | .consume => [0x50000000]
  | .rdreg i => [0x60000000 + BitVec.ofNat 32 (i.toNat * 0x10000)]
  | .reset => [0x70000000]
  | .raw w => [w]

/-- The expansions of the pseudo-instructions (R84). -/
def Pseudo.expand : Pseudo → List AsmLine
  | .feed ss => [.push ss, .consume]
  | .step => [.read, .advance]
  | .prime ss => [.push ss]

end Sys2Proof
end

