-- ==== Sys2Proof/Machine/Fetch.lean ====
section
/-! DEFINITION. What one port event does: the decoder's partial-command buffer (10_state R41, 30_encoding R70, R75), the
response stream, the wait for response acceptance (70_reset_and_hazards R219), and the hardware reset input (R210). -/

namespace Sys2Proof.Machine

/-- What the block does with the next port event. -/
inductive Fetched where
  /-- No command completes: the machine goes on from this state. -/
  | waits (s : State)
  /-- A command is complete, and runs in this state. -/
  | runs (i : Instr) (s : State)
  deriving DecidableEq, Repr

/-- A command word arrives: the command is run when its last word has arrived, and not before (30_encoding R70). Words that
already stood behind a complete command, which happens in no run, stay in the buffer (entry 17). -/
def acceptWord (w : Word) (s : State) : Fetched :=
  match decode (s.partialCmd ++ [w]) with
  | .ok (i, rest) => .runs i { s with partialCmd := rest }
  | .error _ => .waits { s with partialCmd := s.partialCmd ++ [w] }

/-- The first event that is no command word, and the list without it: what the driver does next while it goes on offering a
command word that the block does not accept. -/
def pastOffers : List PortEvent → Option (PortEvent × List PortEvent)
  | [] => none
  | .cmdWord w :: es => (pastOffers es).map (fun r => (r.1, .cmdWord w :: r.2))
  | e :: es => some (e, es)

/-- The event the block takes next, and the events left. While a response word waits to be accepted no command word is
taken: the next command does not start before the response of this one has been accepted (70_reset_and_hazards R219, 93
U17; entry 3). -/
def nextEvent (s : State) : Option (PortEvent × List PortEvent) :=
  match s.rsp with
  | [] => s.port.head?.map (fun e => (e, s.port.tail))
  | _ :: _ => pastOffers s.port

/-- What the block does with a port event that is given to it. -/
def takeEvent (e : PortEvent) (s : State) : Fetched :=
  match e with
  | .cmdWord w => acceptWord w s
  | .rspTaken => .waits { s with rsp := s.rsp.drop 1 }
  | .rst => .waits (hardwareReset s)

/-- The next port event, or none: the block then waits for a command word or for response acceptance (70 R219). -/
def fetch (s : State) : Fetched :=
  match nextEvent s with
  | none => .waits s
  | some (e, es) => takeEvent e { s with port := es }

/-- The response word that moves to the driver in the next step, if one does (20_memory R54). -/
def deliveredWord (s : State) : Option Word :=
  match nextEvent s with
  | some (.rspTaken, _) => s.rsp.head?
  | _ => none

/-- The driver has accepted every response word and has presented all but the last word of a list; the last is the next
port event. -/
def presentWords (ws : List Word) (s : State) : State :=
  { s with partialCmd := ws.dropLast, port := (ws.getLast?.map PortEvent.cmdWord).toList ++ s.port, rsp := [] }

end Sys2Proof.Machine
end

