-- ==== Sys2Proof/Machine/Step.lean ====
section
/-! DEFINITION. One step: the next port event, and the command it completes. -/

namespace Sys2Proof.Machine

/-- One step of the machine (entry 1). -/
def step (s : State) : Host.Outcome State Fault Refusal :=
  match fetch s with
  | .waits s' => .next s'
  | .runs i s' => exec i s'

/-- The state in which the very next step runs the instruction of an opcode-table word: all its words but the last are in
the decoder, the last is the next port event, and no earlier response waits to be accepted (entry 1). -/
def State.withFetchWord (s : State) (nbits w : Nat) : State := presentWords (tableWords nbits w) s

end Sys2Proof.Machine
end

