-- ==== Sys2Proof/Safety.lean ====
section
/-! DEFINITION. What counts as a good state, in the terms the claims use: the invariants of 10_state R43, the named
properties of the generator (40_construct R102, R103), the end of a run (00_scope R14), and command sequences. -/

namespace Sys2Proof.Machine

/-- What holds of every state element while an instance exists (10_state R43, and the ranges of R24 to R36). -/
structure InstanceInv (p : Params) (s : State) : Prop where
  channels : 1 ≤ s.chCount.toNat ∧ s.chCount.toNat ≤ p.maxChannels
  taps : s.tapCount.toNat % 4 = 0 ∧ 4 ≤ s.tapCount.toNat ∧ s.tapCount.toNat ≤ p.maxTaps
  rows : s.numRows.toNat = p.maxCoefficients / s.tapCount.toNat ∧ 2 ≤ s.numRows.toNat
  tableFits : s.numRows.toNat * s.tapCount.toNat ≤ p.maxCoefficients
  ringLength : s.histLen = s.tapCount
  rates : 1 ≤ s.inRate.toNat ∧ s.inRate.toNat < 2 ^ 31 ∧ 1 ≤ s.outRate.toNat ∧ s.outRate.toNat < 2 ^ 31
  coprime : Nat.gcd s.numerator.toNat s.denominator.toNat = 1
  reducedIn : s.numerator.toNat * Nat.gcd s.inRate.toNat s.outRate.toNat = s.inRate.toNat
  reducedOut : s.denominator.toNat * Nat.gcd s.inRate.toNat s.outRate.toNat = s.outRate.toNat
  cursorInRing : s.cursor.toNat < s.histLen.toNat
  phaseBound : s.phase.toNat < s.denominator.toNat + s.numerator.toNat
  /-- `COEF` holds the table CONFIG wrote, and nothing else. -/
  table : ∀ a, memoryRead s.coef a =
    if a < s.numRows.toNat * s.tapCount.toNat then
      some (p.coefGen s.inRate.toInt s.outRate.toInt s.numRows.toNat (1 / ((s.numRows.toNat : Rat) - 1)) s.cutoff
        s.tapCount.toNat a)
    else none
  /-- Every word of the ring has been written, and no other word of `HIST` has. -/
  ringWritten : ∀ a, (memoryRead s.hist a).isSome = decide (a < s.histLen.toNat * s.chCount.toNat)
  faultRecorded : s.fault = true → s.faultCause = 1 ∧ s.denominator.toNat ≤ s.phase.toNat
  noFaultNoCause : s.fault = false → s.faultCause = 0

/-- There is no instance: every element has its reset value (10_state R42, R43). The decoder's buffer and the streams are
not the instance's. -/
def NoInstance (s : State) : Prop :=
  s = { State.reset with partialCmd := s.partialCmd, port := s.port, rsp := s.rsp, nanReads := s.nanReads }

/-- The invariant of the machine: both memories are canonical, there is a sound instance or none, and the decoder's buffer
holds no complete command (10_state R41, R43). -/
structure Inv (p : Params) (s : State) : Prop where
  coefWf : memoryWf s.coef = true
  histWf : memoryWf s.hist = true
  configured : s.cfgValid = true → InstanceInv p s
  unconfigured : s.cfgValid = false → NoInstance s
  decoderWaits : ∀ i rest, decode s.partialCmd ≠ .ok (i, rest)

/-- An instance exists and has not faulted: the work commands execute (30_encoding R77). -/
def Live (s : State) : Prop := s.cfgValid = true ∧ s.fault = false

/-- `PHASE < DENOMINATOR` on a configured block (42_phase R131). -/
def Aligned (s : State) : Prop := s.phase.toNat < s.denominator.toNat

/-- The flag bits of a response header as a number (30_encoding R73): `CV` 16, `FL` 17, `WN` 18. -/
def rspFlags (cv fl wn : Bool) : Word :=
  (if cv then 0x00010000 else 0) + (if fl then 0x00020000 else 0) + (if wn then 0x00040000 else 0)

/-- The flag bits of a response to a command that leaves the state `s`: `WRITE_NEEDED` is `CFG_VALID = 1` and
`PHASE >= DENOMINATOR` (10_state R23, 30_encoding R74). -/
def leftFlags (s : State) : Word :=
  rspFlags s.cfgValid s.fault (s.cfgValid && decide (s.denominator.toNat ≤ s.phase.toNat))

/-- The state with response words added at the end of the response stream; nothing else differs. -/
def withRsp (words : List Word) (s : State) : State := { s with rsp := s.rsp ++ words }

/-- A run is over: every command word has been consumed and no partial command remains (00_scope R14); the last complete
command has then produced its response, in the step that took its last word. R14's runs hold command words only. That
`RunOver` asks nothing of `rspTaken` and `rst` events still in `port`, nor that the responses have been taken, is the model's
choice (entry 2). -/
def RunOver (s : State) : Prop := (∀ w, .cmdWord w ∉ s.port) ∧ s.partialCmd = []

/-- A good state of a run: the fault never fired (60_exceptions R196). -/
def Safe (s : State) : Prop := s.fault = false

/-- Commands executed one after the other (20_memory R60); the first stop ends the sequence. -/
def execAll : List Instr → State → Result
  | [], s => .next s
  | i :: is, s =>
    match exec i s with
    | .next s' => execAll is s'
    | .fault f => .fault f
    | .refused r => .refused r

/-- What the machine does with a port event that is given to it, whatever events its state holds. -/
def stepOn (e : PortEvent) (s : State) : Result :=
  match takeEvent e s with
  | .waits s' => .next s'
  | .runs i s' => exec i s'

/-- The machine driven by port events that are given to it one after the other: the command sequence of the run as a
parameter (10_state R44); the first stop ends the run. -/
def runOn : List PortEvent → State → Result
  | [], s => .next s
  | e :: es, s =>
    match stepOn e s with
    | .next s' => runOn es s'
    | .fault f => .fault f
    | .refused r => .refused r

/-- `GEN_FINITE` (40_construct R103) for the table of the configured state. -/
def GenFinite (p : Params) (s : State) : Prop :=
  ∀ a, a < s.numRows.toNat * s.tapCount.toNat →
    f32IsFinite (tableWord p s.inRate s.outRate s.cutoff s.numRows s.tapCount a) = true

/-- The exact sum of the taps of row `r` of the configured state's table, in units of `2^-149`. It means something only for a
row of finite taps, and `GenUnity` asks for that (entry 22). -/
def rowSumUnits (p : Params) (s : State) (r : Nat) : Int :=
  ((List.range s.tapCount.toNat).map (fun k =>
    f32Units (tableWord p s.inRate s.outRate s.cutoff s.numRows s.tapCount (r * s.tapCount.toNat + k)))).sum

/-- `GEN_UNITY` (40_construct R102) for the table of the configured state: every row sums to 1 within the tolerance. The spec
does not say whether it can hold of a table with an infinite or NaN tap, whose rows have no exact sum: that it does not is
the model's choice (entry 22). -/
def GenUnity (p : Params) (tol : Rat) (s : State) : Prop :=
  GenFinite p s ∧ ∀ r, r < s.numRows.toNat →
    -tol ≤ (rowSumUnits p s r : Rat) / 2 ^ 149 - 1 ∧ (rowSumUnits p s r : Rat) / 2 ^ 149 - 1 ≤ tol

end Sys2Proof.Machine
end

