-- ==== Sys2Proof/Certificates/Slice0/Obligations.lean ====
section
/-! DEFINITION. The statements for the provers. `P` is the machine's own unknown parameters. A title in OBLIGATIONS.json says
what each states and which rules of spec/ it comes from. -/

namespace Sys2Proof.Claims

open Sys2Proof Sys2Proof.Machine

/-- The parameters of the machine. -/
abbrev P : Params := Config.params

/-- The state after a command that is refused with status code `st`: one response word, nothing else (60_exceptions R181). -/
def refusal (opc st : Nat) (s : State) : State :=
  withRsp [BitVec.ofNat 32 (opc * 2 ^ 28 + st * 2 ^ 24) + leftFlags s] s

/-- The commands that need a state of the block (30_encoding R77): CONFIG, PUSH, READ, ADVANCE, CONSUME. -/
def isWork : Instr → Bool
  | .config _ | .push _ | .read _ | .advance _ | .consume _ => true
  | _ => false

/-- The value of `CFG_VALID` a work command needs (30_encoding R77). -/
def neededValid : Instr → Bool
  | .config _ => false
  | _ => true

/-- The expected payload length (30_encoding R77). -/
def expectedLen (i : Instr) (s : State) : Nat :=
  match i with
  | .config _ => 5
  | .push _ => s.chCount.toNat
  | _ => 0

/-- The length of the response payload (30_encoding R73). -/
def answerLength (i : Instr) (st : Status) (s : State) : Nat :=
  match i, st with
  | .read _, .ok => s.chCount.toNat
  | .rdreg _, .ok => 1
  | .config _, .errConfig => 1
  | _, _ => 0

/-- The register map (10_state R33), `STATUS` being the flag bits of a response header moved down to bits 2:0 (R37). -/
def registerValue (index : Nat) (s : State) : Option Word :=
  if index = 0x00 then some (leftFlags s >>> 16)
  else if index = 0x01 then some s.inRate
  else if index = 0x02 then some s.outRate
  else if index = 0x03 then some s.chCount
  else if index = 0x04 then some s.tapCount
  else if index = 0x05 then some s.cutoff
  else if index = 0x06 then some s.numRows
  else if index = 0x07 then some (if s.cfgValid then s.numRows - 1 else 0)
  else if index = 0x08 then some s.numerator
  else if index = 0x09 then some s.denominator
  else if index = 0x0A then some s.phase
  else if index = 0x0B then some s.cursor
  else if index = 0x0C then some s.histLen
  else if index = 0x0D then some (BitVec.ofNat 32 s.faultCause.toNat)
  else if index = 0x0E then some (BitVec.ofNat 32 P.maxCoefficients)
  else if index = 0x0F then some (BitVec.ofNat 32 P.maxChannels)
  else none

/-- The mask of failed configuration checks as a number (60_exceptions R186). -/
def configMask (inR outR ch taps : Word) : Nat :=
  (if inR.toInt ≤ 0 then 1 else 0) + (if outR.toInt ≤ 0 then 2 else 0) + (if ch.toInt ≤ 0 then 4 else 0)
    + (if (P.maxChannels : Int) < ch.toInt then 8 else 0) + (if taps.toInt ≤ 0 then 16 else 0)
    + (if taps.toNat % 4 ≠ 0 then 32 else 0) + (if ((P.maxCoefficients / 2 : Nat) : Int) < taps.toInt then 64 else 0)

/-- Tap `k` of table row `r` (20_memory R51). The default stands where nothing has been written, which no state with the
invariant has at these addresses. -/
def tapAt (s : State) (r k : Nat) : Word := (memoryRead s.coef (r * s.tapCount.toNat + k)).getD 0

/-- Channel `c` of window frame `k` (41_history R122, with `L = T`); default as in `tapAt`. -/
def sampleAt (s : State) (c k : Nat) : Word :=
  (memoryRead s.hist ((s.cursor.toNat + k) % s.tapCount.toNat * s.chCount.toNat + c)).getD 0

/-- The first `n` steps of the sequential sum of 43_read_mac R147. -/
def seqSum (nan : Word) (xs cs : Nat → Word) : Nat → Word
  | 0 => 0x00000000
  | n + 1 => f32Add nan (seqSum nan xs cs n) (f32Mul nan (xs n) (cs n))

/-- The accumulator of channel `c` for table row `r` after the tap loop (43_read_mac R147). -/
def accumulator (p : Params) (s : State) (r c : Nat) : Word :=
  seqSum (channelNan p s c) (sampleAt s c) (tapAt s r) s.tapCount.toNat

/-- `P div DEN` of 42_phase R139. -/
def lowRow (s : State) : Nat := s.phase.toNat * (s.numRows.toNat - 1) / s.denominator.toNat

/-- The output sample of channel `c` (43_read_mac R145 step 8, R148). -/
def outputAt (p : Params) (s : State) (c : Nat) : Word :=
  let nan := channelNan p s c
  let low := accumulator p s (lowRow s) c
  let high := accumulator p s (lowRow s + 1) c
  let frac := f32OfRat (s.phase.toNat * (s.numRows.toNat - 1) % s.denominator.toNat) s.denominator.toNat
  f32Add nan low (f32Mul nan frac (f32Sub nan high low))

/-- The response words of a READ that answers `OK` with the frame `out` (43_read_mac R145). -/
def frameWords (s : State) (out : List Word) : List Word := (0x30010000 + s.chCount) :: out

/-- One round of the phase: one ADVANCE and the CONSUME commands it gives rise to, round number `j` counted from the phase
`p0` (42_phase R136, 70_reset_and_hazards R215). -/
def phaseRound (num den p0 j : Nat) : List Instr :=
  .advance (plainBody []) ::
    List.replicate ((p0 + (j + 1) * num) / den - (p0 + j * num) / den) (.consume (plainBody []))

/-- Offers of command words, as port events. -/
def offers (ws : List Word) : List PortEvent := ws.map .cmdWord

/-- The command words among port events, in their order. -/
def wordsOf (es : List PortEvent) : List Word :=
  es.filterMap (fun e => match e with | .cmdWord w => some w | _ => none)

/-- The port events that are no offer of a command word, in their order. -/
def actionsOf (es : List PortEvent) : List PortEvent :=
  es.filter (fun e => match e with | .cmdWord _ => false | _ => true)

/-- The state after `k` steps, and the response words that moved to the driver in them, oldest first. -/
def runTaking : Nat → State → Option (State × List Word)
  | 0, s => some (s, [])
  | k + 1, s =>
    match step s with
    | .next t => (runTaking k t).map (fun r => (r.1, (deliveredWord s).toList ++ r.2))
    | _ => none

/-- `2^128 - 2^103` in units of `2^-149`: from there on a magnitude rounds to an infinity (43_read_mac R151, R155). -/
def overflowUnits : Nat := (2 ^ 128 - 2 ^ 103) * 2 ^ 149

end Sys2Proof.Claims

open Sys2Proof Sys2Proof.Machine Sys2Proof.Claims

-- Encoding --------------------------------------------------------------------------------------------------------

/-- Every well-formed command is read back from its own words, whatever follows them (30_encoding R70, R71, R76, R85). -/
def Obligations.DecodeGivesBackEveryEncodedCommand : Prop :=
  ∀ (i : Instr) (rest : List Word), i.wf = true → decode (encode i ++ rest) = .ok (i, rest)

/-- Whatever the decoder reads is well formed, and its encoding is the words that were read: no header bit is dropped and no
word sequence has two readings (30_encoding R85). -/
def Obligations.EncodeGivesBackEveryDecodedSequence : Prop :=
  ∀ (ws rest : List Word) (i : Instr), decode ws = .ok (i, rest) → i.wf = true ∧ ws = encode i ++ rest

/-- A stream of whole commands followed by words that hold no complete command splits into exactly those commands and those
words (30_encoding R85). -/
def Obligations.StreamSplitsIntoItsCommands : Prop :=
  ∀ (cmds : List Instr) (tail : List Word) (n : Nat),
    (∀ i ∈ cmds, i.wf = true) → (∀ i rest, decode tail ≠ .ok (i, rest)) → cmds.length ≤ n →
      splitCommands n (cmds.flatMap encode ++ tail) = (cmds, tail)

/-- The decoder takes exactly `LEN` payload words, and reads `OPC`, `RSV`, `ARG` and `LEN` from bits 31:28, 27:24, 23:16 and
15:0 of the header (30_encoding R71, R72). -/
def Obligations.HeaderFieldsStandWhereTheFormatPutsThem : Prop :=
  ∀ (h : Word) (pay rest : List Word), pay.length = h.toNat % 2 ^ 16 →
    ∃ i, decode (h :: (pay ++ rest)) = .ok (i, rest) ∧ i.opcode.toNat = h.toNat / 2 ^ 28 ∧
      i.body.rsv.toNat = h.toNat / 2 ^ 24 % 16 ∧ i.body.arg.toNat = h.toNat / 2 ^ 16 % 256 ∧ i.body.pay = pay

/-- The encodings that 30_encoding R83 lists, for the eight commands, and a reserved opcode (R78). -/
def Obligations.ListedEncodingsDecode : Prop :=
  decode [0x00000000] = .ok (.nop (plainBody []), []) ∧
  decode [0x10000005, 3, 4, 1, 4, 0x3F800000] = .ok (.config (plainBody [3, 4, 1, 4, 0x3F800000]), []) ∧
  decode [0x20000002, 0x3F800000, 0xBF800000, 0x30000000]
    = .ok (.push (plainBody [0x3F800000, 0xBF800000]), [0x30000000]) ∧
  decode [0x30000000] = .ok (.read (plainBody []), []) ∧
  decode [0x40000000] = .ok (.advance (plainBody []), []) ∧
  decode [0x50000000] = .ok (.consume (plainBody []), []) ∧
  decode [0x600B0000] = .ok (.rdreg { rsv := 0, arg := 0x0B, pay := [] }, []) ∧
  decode [0x70000000] = .ok (.reset (plainBody []), []) ∧
  decode [0x90000001, 0x12345678, 0x30000000] = .ok (.reserved 9 (plainBody [0x12345678]), [0x30000000])

/-- Every assembler line whose operands fit a command decodes to that command with `RSV = 0`, and `ARG = 0` except for RDREG
(30_encoding R83). -/
def Obligations.AssembledLinesDecodeToTheirCommands : Prop :=
  (∀ inR outR ch taps cut : Word,
    decode (assemble (.config inR outR ch taps cut)) = .ok (.config (plainBody [inR, outR, ch, taps, cut]), [])) ∧
  (∀ ss : List Word, ss.length < 65536 → decode (assemble (.push ss)) = .ok (.push (plainBody ss), [])) ∧
  (∀ idx : BitVec 8, decode (assemble (.rdreg idx)) = .ok (.rdreg { rsv := 0, arg := idx, pay := [] }, [])) ∧
  decode (assemble .nop) = .ok (.nop (plainBody []), []) ∧
  decode (assemble .read) = .ok (.read (plainBody []), []) ∧
  decode (assemble .advance) = .ok (.advance (plainBody []), []) ∧
  decode (assemble .consume) = .ok (.consume (plainBody []), []) ∧
  decode (assemble .reset) = .ok (.reset (plainBody []), [])

-- The step --------------------------------------------------------------------------------------------------------

/-- When no response word waits to be accepted, a command word that completes a command runs it in the same step, and one that
does not is kept in the decoder's buffer and changes nothing else (30_encoding R70, R75). Two clauses of this are the model's
choice: that no word is taken while a response word waits (entry 3), and, in a state whose buffer held a complete command
already, which no run reaches, that the words behind it stay in the buffer (entry 17). -/
def Obligations.CommandRunsWhenItsLastWordArrives : Prop :=
  ∀ (s : State) (w : Word) (es : List PortEvent), s.rsp = [] → s.port = .cmdWord w :: es →
    (∀ i rest, decode (s.partialCmd ++ [w]) = .ok (i, rest) →
      step s = exec i { s with port := es, partialCmd := rest }) ∧
    (∀ r, decode (s.partialCmd ++ [w]) = .error r →
      step s = .next { s with port := es, partialCmd := s.partialCmd ++ [w] })

/-- When all words of a well-formed command but the last are in the decoder, the last is the next port event and no response
word waits, the step is that command's execution with an empty decoder. -/
def Obligations.PresentedCommandRunsInTheNextStep : Prop :=
  ∀ (i : Instr) (s : State), i.wf = true →
    step (presentWords (encode i) s) = exec i { s with partialCmd := [], rsp := [] }

/-- A step takes at most one port event: the first when no response word waits, and otherwise the first that is no offer of a
command word, the offers before it staying in order; it takes none only when there is none to take. So no command word is
dropped, repeated or reordered (20_memory R54). That the port is a list of events of which one step takes one is the model's
choice (entries 1, 2), and so is which event goes first while a response word waits (entry 3). -/
def Obligations.StepTakesAtMostOnePortEvent : Prop :=
  ∀ s t : State, step s = .next t →
    (s.rsp = [] → t.port = s.port.drop 1) ∧
    (s.rsp ≠ [] → ∃ (ws : List Word) (es : List PortEvent), s.port = offers ws ++ es ∧
      (es = [] ∧ t = s ∨
        ∃ e es', es = e :: es' ∧ (e = .rspTaken ∨ e = .rst) ∧ t.port = offers ws ++ es'))

/-- The hardware reset input gives every element its reset value and discards a partial command (70_reset_and_hazards R210,
R211; 10_state R42). That the response words in flight are gone and that the words the driver offers and the block has not
accepted stay offered is entry 4, that the model's counter stays is entry 8. -/
def Obligations.HardwareResetGivesTheResetState : Prop :=
  ∀ (s : State) (ws : List Word) (es : List PortEvent), s.port = offers ws ++ .rst :: es → (ws = [] ∨ s.rsp ≠ []) →
    step s = .next { State.reset with port := offers ws ++ es, nanReads := s.nanReads }

/-- The driver accepts response words from the front, also while it offers command words that the block does not take, and a
block with nothing presented to it waits unchanged (20_memory R54; the form of the ports is the model's choice, entries 2
and 3). -/
def Obligations.ResponseWordsLeaveInOrder : Prop :=
  (∀ (s : State) (ws : List Word) (es : List PortEvent), s.port = offers ws ++ .rspTaken :: es → (ws = [] ∨ s.rsp ≠ []) →
    step s = .next { s with port := offers ws ++ es, rsp := s.rsp.drop 1 } ∧ deliveredWord s = s.rsp.head?) ∧
  (∀ s : State, s.port = [] → step s = .next s)

/-- A block whose response the driver does not accept waits: with a response word waiting and nothing but command words
presented, the step changes nothing (70_reset_and_hazards R219, 93 U17). That not even a word of the next command is taken
into the decoder is the model's choice (entry 3). -/
def Obligations.BlockWaitsForResponseAcceptance : Prop :=
  ∀ (s : State) (ws : List Word), s.rsp ≠ [] → s.port = offers ws → step s = .next s

/-- Every presented command is executed and its response offered, when the driver accepts response words
(70_reset_and_hazards R219, 20_memory R54, R60): for any well-formed commands presented to a block that has answered
everything, followed by at least as many acceptances as there will be response words, the state that executing the commands
one after the other gives is reached, the run is over, and the words the driver has accepted are exactly their responses, in
their order. That one step takes one port event, and which, is the model's choice (entries 1 to 3). -/
def Obligations.PresentedCommandsAreExecutedAndAnswered : Prop :=
  ∀ (s : State) (cmds : List Instr), Inv P s → s.partialCmd = [] → s.rsp = [] → (∀ i ∈ cmds, i.wf = true) →
    ∃ t, execAll cmds s = .next t ∧
      ∀ n, t.rsp.length ≤ n →
        ∃ k u, runTaking k { s with port := offers (cmds.flatMap encode) ++ List.replicate n .rspTaken } = some (u, t.rsp) ∧
          u = { t with port := List.replicate (n - t.rsp.length) .rspTaken, rsp := [] } ∧ RunOver u

/-- The command sequence of a run is a parameter and no state of the block (10_state R44): any number of steps is the machine
driven by the port events it takes, which are given to it from outside and of which its state holds none, so that no event
still to come has a part in what it does; and the events taken and those left are the presented ones, the command words in
their order and the other actions in theirs (20_memory R54). That the state carries the events still to come is the model's
choice (entry 2), and so is how offers and other actions interleave while a response word waits (entry 3). -/
def Obligations.CommandSequenceIsAParameterOfTheRun : Prop :=
  ∀ (k : Nat) (s u : State) (out : List Word), runTaking k s = some (u, out) →
    ∃ es, runOn es { s with port := [] } = .next { u with port := [] } ∧
      wordsOf s.port = wordsOf es ++ wordsOf u.port ∧ actionsOf s.port = actionsOf es ++ actionsOf u.port

-- Commands that execute in every state ----------------------------------------------------------------------------

/-- NOP, whole (44_system R170). -/
def Obligations.NopFollowsItsRule : Prop :=
  ∀ (b : CmdBody) (s : State), exec (.nop b) s = .next
    (if b.rsv ≠ 0 ∨ b.arg ≠ 0 then refusal 0 1 s
    else if b.pay.length ≠ 0 then refusal 0 2 s
    else withRsp [leftFlags s] s)

/-- RDREG, whole (44_system R172): the register of 10_state R33, or `ERR_REG`; nothing but the response changes. -/
def Obligations.RdregFollowsItsRule : Prop :=
  ∀ (b : CmdBody) (s : State), exec (.rdreg b) s = .next
    (if b.rsv ≠ 0 then refusal 6 1 s
    else if b.pay.length ≠ 0 then refusal 6 2 s
    else
      match registerValue b.arg.toNat s with
      | none => refusal 6 8 s
      | some w => withRsp [0x60000001 + leftFlags s, w] s)

/-- RESET, whole (44_system R171, 10_state R42). That the streams and the model's counter stay is entry 18. -/
def Obligations.ResetFollowsItsRule : Prop :=
  ∀ (b : CmdBody) (s : State), exec (.reset b) s = .next
    (if b.rsv ≠ 0 ∨ b.arg ≠ 0 then refusal 7 1 s
    else if b.pay.length ≠ 0 then refusal 7 2 s
    else withRsp [0x70000000] { State.reset with port := s.port, rsp := s.rsp, nanReads := s.nanReads })

/-- A header that spells no command (a reserved opcode, `RSV` not 0, or `ARG` not 0 outside RDREG) answers `ERR_ILLEGAL` in
every state, whatever its payload, and nothing else changes; the step that runs it leaves no word of the payload behind
(30_encoding R78, R79; 60_exceptions R183). -/
def Obligations.UnspelledHeadersAnswerIllegal : Prop :=
  ∀ (i : Instr) (s : State), i.spellsCommand = false →
    exec i s = .next (refusal i.opcode.toNat 1 s) ∧
    (i.wf = true → step (presentWords (encode i) s) = .next (refusal i.opcode.toNat 1 { s with partialCmd := [], rsp := [] }))

-- Refusals --------------------------------------------------------------------------------------------------------

/-- The common checks of the work commands, in their order: faulted (60_exceptions R188), then state (R185), then length
(R184); the order is R191, steps 2 to 4. -/
def Obligations.WorkCommandsAreCheckedInOrder : Prop :=
  ∀ (i : Instr) (s : State), i.spellsCommand = true → isWork i = true →
    (s.fault = true → exec i s = .next (refusal i.opcode.toNat 6 s)) ∧
    (s.fault = false → s.cfgValid ≠ neededValid i → exec i s = .next (refusal i.opcode.toNat 3 s)) ∧
    (s.fault = false → s.cfgValid = neededValid i → i.body.pay.length ≠ expectedLen i s →
      exec i s = .next (refusal i.opcode.toNat 2 s))

/-- A command that answers an error changes nothing but the response stream, and one that answers `FAULT_INVARIANT` changes
`FAULT` and `FAULT_CAUSE` besides (60_exceptions R181). -/
def Obligations.ErrorsArePrecise : Prop :=
  ∀ (i : Instr) (s t : State) (h : Word) (out : List Word),
    exec i s = .next t → t.rsp = s.rsp ++ h :: out → h.toNat / 2 ^ 24 % 16 ≠ 0 →
      t = if h.toNat / 2 ^ 24 % 16 = 7 then { s with fault := true, faultCause := 1, rsp := t.rsp }
        else { s with rsp := t.rsp }

/-- Every complete command gives exactly one response: a header that copies the opcode and carries a status, the flags of the
state left and the payload's length, bits 23:19 zero, and then the payload, `C` words for READ, one for RDREG and for a
failed CONFIG, none otherwise (30_encoding R73, R74). -/
def Obligations.EveryCommandAnswersExactlyOnce : Prop :=
  ∀ (i : Instr) (s : State), Inv P s →
    ∃ (t : State) (st : Status) (out : List Word), exec i s = .next t ∧ out.length = answerLength i st s ∧
      out.length < 65536 ∧
      t.rsp = s.rsp ++ (BitVec.ofNat 32 (i.opcode.toNat * 2 ^ 28 + (statusCode st).toNat * 2 ^ 24 + out.length)
        + leftFlags t) :: out

-- CONFIG ----------------------------------------------------------------------------------------------------------

/-- A CONFIG with a failing check builds nothing and answers the mask of all failing checks (40_construct R104, R107;
60_exceptions R186). -/
def Obligations.FailedConfigBuildsNothing : Prop :=
  ∀ (inR outR ch taps cut : Word) (s : State), s.cfgValid = false → s.fault = false → configMask inR outR ch taps ≠ 0 →
    exec (.config (plainBody [inR, outR, ch, taps, cut])) s
      = .next (withRsp [0x14000001, BitVec.ofNat 32 (configMask inR outR ch taps)] s)

/-- A CONFIG whose seven checks pass writes the registers, the whole table and the cleared history, and nothing else
(40_construct R104, R105, R106). -/
def Obligations.ConfigBuildsTheInstance : Prop :=
  ∀ (inR outR ch taps cut : Word) (s : State), s.cfgValid = false → s.fault = false → configMask inR outR ch taps = 0 →
    ∃ t, exec (.config (plainBody [inR, outR, ch, taps, cut])) s = .next t ∧
      (∀ a, memoryRead t.coef a =
        if a < P.maxCoefficients / taps.toNat * taps.toNat then
          some (P.coefGen inR.toInt outR.toInt (P.maxCoefficients / taps.toNat)
            (1 / (((P.maxCoefficients / taps.toNat : Nat) : Rat) - 1)) cut taps.toNat a)
        else memoryRead s.coef a) ∧
      (∀ a, memoryRead t.hist a = if a < taps.toNat * ch.toNat then some 0x00000000 else memoryRead s.hist a) ∧
      { t with coef := s.coef, hist := s.hist } = withRsp [0x10010000] { s with
        cfgValid := true
        inRate := inR
        outRate := outR
        chCount := ch
        tapCount := taps
        cutoff := cut
        numRows := BitVec.ofNat 32 (P.maxCoefficients / taps.toNat)
        numerator := BitVec.ofNat 32 (inR.toNat / Nat.gcd inR.toNat outR.toNat)
        denominator := BitVec.ofNat 32 (outR.toNat / Nat.gcd inR.toNat outR.toNat)
        histLen := taps
        phase := 0
        cursor := 0 }

-- PUSH ------------------------------------------------------------------------------------------------------------

/-- PUSH on a live block writes its words bit for bit at the cursor's frame, channel 0 first, moves the cursor on modulo the
ring, and changes nothing else (41_history R121). -/
def Obligations.PushWritesOneFrame : Prop :=
  ∀ (pay : List Word) (s : State), Inv P s → Live s → pay.length = s.chCount.toNat →
    ∃ t, exec (.push (plainBody pay)) s = .next t ∧
      (∀ a, memoryRead t.hist a =
        if s.cursor.toNat * s.chCount.toNat ≤ a ∧ a < s.cursor.toNat * s.chCount.toNat + s.chCount.toNat then
          pay[a - s.cursor.toNat * s.chCount.toNat]?
        else memoryRead s.hist a) ∧
      { t with hist := s.hist } = withRsp [0x20000000 + leftFlags s]
        { s with cursor := if s.cursor.toNat + 1 = s.histLen.toNat then 0 else s.cursor + 1 }

/-- After a PUSH the newest window frame is the frame pushed and every other window frame is the next newer one of before:
the frame overwritten was the oldest (41_history R122, R123). -/
def Obligations.PushShiftsTheWindowByOneFrame : Prop :=
  ∀ (pay : List Word) (s t : State), Inv P s → Live s → pay.length = s.chCount.toNat →
    exec (.push (plainBody pay)) s = .next t →
      ∀ c, c < s.chCount.toNat → ∀ j, j < s.tapCount.toNat →
        sampleAt t c j = if j + 1 < s.tapCount.toNat then sampleAt s c (j + 1) else pay.getD c 0

/-- The order of a PUSH and a phase command does not matter but for the response stream: both orders end in the same state of
the block (70_reset_and_hazards R217). The response words may differ in more than their order, because each shows
`WRITE_NEEDED` as it stands after its own command. -/
def Obligations.PushCommutesWithThePhaseCommands : Prop :=
  ∀ (pay : List Word) (i : Instr) (s : State), Inv P s → Live s → pay.length = s.chCount.toNat →
    (Aligned s ∧ i = .advance (plainBody []) ∨ ¬ Aligned s ∧ i = .consume (plainBody [])) →
      ∃ t u, execAll [.push (plainBody pay), i] s = .next t ∧ execAll [i, .push (plainBody pay)] s = .next u ∧
        { t with rsp := [] } = { u with rsp := [] }

-- READ ------------------------------------------------------------------------------------------------------------

/-- READ on a live, aligned block answers the frame of the two sequential convolutions and their interpolation, and changes
nothing but the response stream and the model's own counter of free values (43_read_mac R145 to R149, entry 8). -/
def Obligations.ReadAnswersTheInterpolatedFrame : Prop :=
  ∀ s : State, Inv P s → Live s → Aligned s →
    exec (.read (plainBody [])) s = .next
      (withRsp (frameWords s ((List.range s.chCount.toNat).map (outputAt P s))) { s with nanReads := s.nanReads + 1 })

/-- READ on a live block that is not aligned enters the fault: `FAULT` and `FAULT_CAUSE` are set, nothing else changes, no
frame is produced, and the response is 0x37070000 (60_exceptions R193). -/
def Obligations.UnalignedReadEntersTheFault : Prop :=
  ∀ s : State, Inv P s → Live s → ¬ Aligned s →
    exec (.read (plainBody [])) s = .next (withRsp [0x37070000] { s with fault := true, faultCause := 1 })

/-- A channel whose whole window is zeros of either sign reads exactly `+0.0`, whatever the other channels hold, when the
table is finite (43_read_mac R156, R158). It is stated at all parameters `p` and so at every coefficient generator;
`exec (.read b)` is `readWith Config.params b`. -/
def Obligations.SilentChannelReadsPositiveZero : Prop :=
  (∀ b s, exec (.read b) s = readWith P b s) ∧
  ∀ (p : Params) (s : State) (c : Nat), p.ok → Inv p s → Live s → Aligned s → GenFinite p s → c < s.chCount.toNat →
    (∀ j, j < s.tapCount.toNat → f32IsZero (sampleAt s c j) = true) →
      ∃ t out, readWith p (plainBody []) s = .next t ∧ t.rsp = s.rsp ++ frameWords s out ∧ out[c]? = some 0x00000000

/-- Two states that differ only in the history of other channels give the same output in channel `c`: the same word, or a NaN
in both, whose pattern 43_read_mac R154 leaves open (R158). It is stated at all parameters `p`, as the statement on silence
is. -/
def Obligations.ChannelOutputDependsOnItsOwnChannelOnly : Prop :=
  (∀ b s, exec (.read b) s = readWith P b s) ∧
  ∀ (p : Params) (s : State) (hist' : Memory) (c : Nat), p.ok → Inv p s → Inv p { s with hist := hist' } → Live s →
    Aligned s → c < s.chCount.toNat →
    (∀ f, f < s.histLen.toNat →
      memoryRead hist' (f * s.chCount.toNat + c) = memoryRead s.hist (f * s.chCount.toNat + c)) →
      ∃ t t' out out' w w', readWith p (plainBody []) s = .next t ∧
        readWith p (plainBody []) { s with hist := hist' } = .next t' ∧
        t.rsp = s.rsp ++ frameWords s out ∧ t'.rsp = s.rsp ++ frameWords s out' ∧ out[c]? = some w ∧ out'[c]? = some w' ∧
        f32IsNan w = f32IsNan w' ∧ (f32IsNan w = false → w = w')

/-- At a table phase that is an integer the output is the low convolution bit for bit when the difference of the two
convolutions is finite, and a NaN when it is not (43_read_mac R159, which the spec derives from R148 and R155). It is stated
at all parameters `p`, as the statement on silence is. -/
def Obligations.IntegerTablePhaseExcludesTheHighRow : Prop :=
  (∀ b s, exec (.read b) s = readWith P b s) ∧
  ∀ (p : Params) (s : State) (c : Nat), p.ok → Inv p s → Live s → Aligned s → c < s.chCount.toNat →
    s.phase.toNat * (s.numRows.toNat - 1) % s.denominator.toNat = 0 →
      let d := f32Sub (channelNan p s c) (accumulator p s (lowRow s + 1) c) (accumulator p s (lowRow s) c)
      ∃ t out w, readWith p (plainBody []) s = .next t ∧ t.rsp = s.rsp ++ frameWords s out ∧ out[c]? = some w ∧
        (f32IsFinite d = true → w = accumulator p s (lowRow s) c) ∧ (f32IsFinite d = false → f32IsNan w = true)

-- The phase -------------------------------------------------------------------------------------------------------

/-- ADVANCE, whole (42_phase R132). -/
def Obligations.AdvanceFollowsItsRule : Prop :=
  ∀ (b : CmdBody) (s : State), Inv P s → exec (.advance b) s = .next
    (if b.rsv ≠ 0 ∨ b.arg ≠ 0 then refusal 4 1 s
    else if s.fault = true then refusal 4 6 s
    else if s.cfgValid = false then refusal 4 3 s
    else if b.pay.length ≠ 0 then refusal 4 2 s
    else if s.denominator.toNat ≤ s.phase.toNat then refusal 4 5 s
    else withRsp [if s.denominator.toNat ≤ s.phase.toNat + s.numerator.toNat then 0x40050000 else 0x40010000]
      { s with phase := BitVec.ofNat 32 (s.phase.toNat + s.numerator.toNat) })

/-- CONSUME, whole (42_phase R133). -/
def Obligations.ConsumeFollowsItsRule : Prop :=
  ∀ (b : CmdBody) (s : State), exec (.consume b) s = .next
    (if b.rsv ≠ 0 ∨ b.arg ≠ 0 then refusal 5 1 s
    else if s.fault = true then refusal 5 6 s
    else if s.cfgValid = false then refusal 5 3 s
    else if b.pay.length ≠ 0 then refusal 5 2 s
    else if s.phase.toNat < s.denominator.toNat then refusal 5 5 s
    else withRsp [if s.denominator.toNat ≤ s.phase.toNat - s.denominator.toNat then 0x50050000 else 0x50010000]
      { s with phase := BitVec.ofNat 32 (s.phase.toNat - s.denominator.toNat) })

/-- The high row index leaves the table exactly when the phase is not aligned (42_phase R141). -/
def Obligations.GuardIndexLeavesTheTableExactlyWhenUnaligned : Prop :=
  ∀ s : State, 2 ≤ s.numRows.toNat → 0 < s.denominator.toNat →
    (s.numRows.toNat ≤ indexHigh s ↔ s.denominator.toNat ≤ s.phase.toNat)

/-- The rounded fraction is `+0.0` exactly when the exact one is 0, and it lies from 0 to 1 (42_phase R140, 43_read_mac R153). -/
def Obligations.FractionIsZeroExactlyOnARow : Prop :=
  ∀ s : State, Inv P s → s.cfgValid = true →
    (fraction s = 0x00000000 ↔ phaseRem s = 0) ∧ f32IsFinite (fraction s) = true ∧
      0 ≤ f32Units (fraction s) ∧ f32Units (fraction s) ≤ 2 ^ 149

/-- After `k` rounds of ADVANCE and the CONSUME commands it gives rise to, from an aligned phase `p0`, every response having
been `OK`, the phase is `(p0 + k * NUM) mod DEN`, and `(p0 + k * NUM) div DEN` frames have been consumed (42_phase R136). -/
def Obligations.PhaseAfterRoundsIsTheResidue : Prop :=
  ∀ (s : State) (k : Nat), Inv P s → Live s → Aligned s →
    ∃ t, execAll ((List.range k).flatMap (phaseRound s.numerator.toNat s.denominator.toNat s.phase.toNat)) s = .next t ∧
      t.phase.toNat = (s.phase.toNat + k * s.numerator.toNat) % s.denominator.toNat ∧
      { t with phase := s.phase, rsp := s.rsp } = s ∧
      t.rsp.length = s.rsp.length + k + (s.phase.toNat + k * s.numerator.toNat) / s.denominator.toNat ∧
      ∀ h ∈ t.rsp.drop s.rsp.length, h.toNat / 2 ^ 24 % 16 = 0

/-- Under the driver protocol every command answers `OK`: PUSH and CONSUME while frames are owed, READ and ADVANCE when none
is (70_reset_and_hazards R215, 60_exceptions R196). -/
def Obligations.ProtocolCommandsAnswerOk : Prop :=
  ∀ s : State, Inv P s → Live s →
    (∀ pay : List Word, pay.length = s.chCount.toNat →
      ∃ t h, exec (.push (plainBody pay)) s = .next t ∧ t.rsp = s.rsp ++ [h] ∧ h.toNat / 2 ^ 24 % 16 = 0 ∧ Live t) ∧
    (¬ Aligned s → ∃ t h, exec (.consume (plainBody [])) s = .next t ∧ t.rsp = s.rsp ++ [h] ∧ h.toNat / 2 ^ 24 % 16 = 0 ∧ Live t) ∧
    (Aligned s → ∃ t h out, exec (.read (plainBody [])) s = .next t ∧ t.rsp = s.rsp ++ h :: out ∧ h.toNat / 2 ^ 24 % 16 = 0 ∧
      out.length = s.chCount.toNat ∧ Live t) ∧
    (Aligned s → ∃ t h, exec (.advance (plainBody [])) s = .next t ∧ t.rsp = s.rsp ++ [h] ∧ h.toNat / 2 ^ 24 % 16 = 0 ∧ Live t)

-- Arithmetic ------------------------------------------------------------------------------------------------------

/-- A finite sum is the binary32 number nearest to the exact sum, and on a tie the one whose fraction is even
(43_read_mac R152). -/
def Obligations.SumIsNearestTiesToEven : Prop :=
  ∀ nan a b x : Word, f32IsFinite a = true → f32IsFinite b = true → f32IsFinite x = true →
    f32IsFinite (f32Add nan a b) = true →
      let e := f32Units a + f32Units b
      let r := f32Units (f32Add nan a b)
      (e - r).natAbs ≤ (e - f32Units x).natAbs ∧
        ((e - r).natAbs = (e - f32Units x).natAbs → f32Units x = r ∨ f32Frac (f32Add nan a b) % 2 = 0)

/-- A finite product is the binary32 number nearest to the exact product, and on a tie the one whose fraction is even
(43_read_mac R151). Exact products are counted in units of `2^-298`. -/
def Obligations.ProductIsNearestTiesToEven : Prop :=
  ∀ nan a b x : Word, f32IsFinite a = true → f32IsFinite b = true → f32IsFinite x = true →
    f32IsFinite (f32Mul nan a b) = true →
      let e := f32Units a * f32Units b
      let r := f32Units (f32Mul nan a b) * 2 ^ 149
      (e - r).natAbs ≤ (e - f32Units x * 2 ^ 149).natAbs ∧
        ((e - r).natAbs = (e - f32Units x * 2 ^ 149).natAbs →
          f32Units x * 2 ^ 149 = r ∨ f32Frac (f32Mul nan a b) % 2 = 0)

/-- `f32_of_rat(n / d)` is the binary32 number nearest to `n / d`, and on a tie the one whose fraction is even; it is finite
and lies from 0 to 1, it is `+0.0` for 0, and for the denominators below `2^31` that the block has it is never subnormal for
another fraction (43_read_mac R153). -/
def Obligations.FractionConversionIsNearestTiesToEven : Prop :=
  ∀ (n d : Nat) (x : Word), n < d → f32IsFinite x = true →
    let e : Int := n * 2 ^ 149
    let r := f32Units (f32OfRat n d) * d
    f32IsFinite (f32OfRat n d) = true ∧ 0 ≤ r ∧ r ≤ 2 ^ 149 * d ∧
      (n = 0 → f32OfRat n d = 0x00000000) ∧ (n ≠ 0 → d < 2 ^ 31 → f32Exp (f32OfRat n d) ≠ 0) ∧
      (e - r).natAbs ≤ (e - f32Units x * d).natAbs ∧
      ((e - r).natAbs = (e - f32Units x * d).natAbs → f32Units x * d = r ∨ f32Frac (f32OfRat n d) % 2 = 0)

/-- Law `EXACT`: a sum or product that is a binary32 number is answered exactly (43_read_mac R155). -/
def Obligations.ExactResultsAreAnsweredExactly : Prop :=
  ∀ nan a b r : Word, f32IsFinite a = true → f32IsFinite b = true → f32IsFinite r = true → f32Units r ≠ 0 →
    (f32Units a + f32Units b = f32Units r → f32Add nan a b = r) ∧
    (f32Units a - f32Units b = f32Units r → f32Sub nan a b = r) ∧
    (f32Units a * f32Units b = f32Units r * 2 ^ 149 → f32Mul nan a b = r)

/-- Law `FINITE_CLOSED`, and its converse: an exact result of magnitude below `2^128 - 2^103` is answered finite
(43_read_mac R155), and one of that magnitude or more is answered as an infinity of its sign (R151, R152). That the
threshold itself overflows, and with it where both infinity clauses begin, is IEEE 754's rule, which the spec does not spell
out (entry 9). -/
def Obligations.OverflowIsExactlyAtTheThreshold : Prop :=
  ∀ nan a b : Word, f32IsFinite a = true → f32IsFinite b = true →
    ((f32Units a + f32Units b).natAbs < overflowUnits → f32IsFinite (f32Add nan a b) = true) ∧
    (overflowUnits ≤ (f32Units a + f32Units b).natAbs →
      f32Add nan a b = if f32Units a + f32Units b < 0 then 0xFF800000 else 0x7F800000) ∧
    ((f32Units a * f32Units b).natAbs < overflowUnits * 2 ^ 149 → f32IsFinite (f32Mul nan a b) = true) ∧
    (overflowUnits * 2 ^ 149 ≤ (f32Units a * f32Units b).natAbs →
      f32Mul nan a b = if f32Sign a = f32Sign b then 0x7F800000 else 0xFF800000)

/-- Laws `MUL_ZERO`, `ADD_PZERO`, `SUB_PZERO` (43_read_mac R155). -/
def Obligations.ZeroOperandsGiveZeros : Prop :=
  ∀ nan a b : Word, f32IsZero a = true → f32IsFinite b = true →
    f32IsZero (f32Mul nan a b) = true ∧ f32IsZero (f32Mul nan b a) = true ∧ f32Add nan 0x00000000 a = 0x00000000 ∧
      f32Sub nan 0x00000000 0x00000000 = 0x00000000

/-- Law `ADD_ZERO_ID`: adding a zero of either sign to a finite number other than `-0.0` gives it back bit for bit
(43_read_mac R155). -/
def Obligations.AddingZeroGivesBackTheOperand : Prop :=
  ∀ nan x z : Word, f32IsFinite x = true → x ≠ 0x80000000 → f32IsZero z = true → f32Add nan x z = x

/-- Law `NOT_NZERO`: a sum whose first operand is not `-0.0` is not `-0.0`, whatever NaN a NaN result is (43_read_mac R155). -/
def Obligations.SumIsNotNegativeZero : Prop :=
  ∀ nan x y : Word, f32IsNan nan = true → x ≠ 0x80000000 → f32Add nan x y ≠ 0x80000000

/-- The signs of zero results (43_read_mac R151, R152). -/
def Obligations.ZeroResultsHaveTheirSigns : Prop :=
  (∀ nan : Word, f32Add nan 0x80000000 0x80000000 = 0x80000000 ∧ f32Add nan 0x00000000 0x80000000 = 0x00000000) ∧
  (∀ nan a b : Word, f32IsFinite a = true → f32IsFinite b = true → f32Units a + f32Units b = 0 →
    ¬ (a = 0x80000000 ∧ b = 0x80000000) → f32Add nan a b = 0x00000000) ∧
  (∀ nan a b : Word, f32IsFinite a = true → f32IsFinite b = true → f32IsZero (f32Mul nan a b) = true →
    f32Mul nan a b = if f32Sign a = f32Sign b then 0x00000000 else 0x80000000)

/-- A NaN operand, `0 * inf` and `inf - inf` give a NaN, and the pattern is the free value of the READ and channel, which is
always a NaN (43_read_mac R154, entry 8). -/
def Obligations.InvalidOperationsGiveANan : Prop :=
  (∀ (s : State) (c : Nat), f32IsNan (channelNan P s c) = true) ∧
  (∀ nan a b : Word, f32IsNan a = true ∨ f32IsNan b = true →
    f32Add nan a b = nan ∧ f32Sub nan a b = nan ∧ f32Mul nan a b = nan) ∧
  (∀ nan a b : Word, f32IsZero a = true → f32IsInf b = true → f32Mul nan a b = nan ∧ f32Mul nan b a = nan) ∧
  (∀ nan a : Word, f32IsInf a = true → f32Sub nan a a = nan)

/-- Valid operations with an infinite operand (43_read_mac R151, R152: the IEEE 754 product, sum and difference; R154:
infinities flow into the outputs). Their results are IEEE 754's, which the spec does not spell out (entry 9): an infinity
plus or minus a finite number, or a finite number plus it, is that infinity; a finite number minus it is the other one; two
infinities of one sign add up to it, and two of different signs subtract to the first; an infinity times a number other than
a zero or a NaN is an infinity whose sign is the exclusive-or of the signs. -/
def Obligations.InfinityOperandsGiveInfinities : Prop :=
  ∀ nan a b : Word, f32IsInf a = true →
    (f32IsFinite b = true → f32Add nan a b = a ∧ f32Add nan b a = a ∧ f32Sub nan a b = a ∧
      f32Sub nan b a = if a = 0x7F800000 then 0xFF800000 else 0x7F800000) ∧
    f32Add nan a a = a ∧
    (f32IsInf b = true → a ≠ b → f32Sub nan a b = a) ∧
    (f32IsNan b = false → f32IsZero b = false →
      f32Mul nan a b = (if f32Sign a = f32Sign b then 0x7F800000 else 0xFF800000) ∧
      f32Mul nan b a = if f32Sign a = f32Sign b then 0x7F800000 else 0xFF800000)

-- The whole machine -----------------------------------------------------------------------------------------------

/-- The invariant holds right after reset. -/
def Obligations.ResetStateMeetsTheInvariant : Prop := Inv P State.reset

/-- Every element has its reset value (10_state R42). -/
def Obligations.ResetValuesAreTheSpecs : Prop :=
  State.reset.cfgValid = false ∧ State.reset.fault = false ∧ writeNeeded State.reset = false ∧
  (∀ index, index < 0x0E → registerValue index State.reset = some 0) ∧
  registerValue 0x0E State.reset = some (BitVec.ofNat 32 P.maxCoefficients) ∧
  registerValue 0x0F State.reset = some (BitVec.ofNat 32 P.maxChannels) ∧ State.reset.partialCmd = []

/-- Every step keeps the invariant: 10_state R43, the phase bound of 42_phase R135, the table of 20_memory R63, the canonical
form of both memories, and a decoder that holds no complete command. -/
def Obligations.EveryStepKeepsTheInvariant : Prop :=
  ∀ s t : State, Inv P s → step s = .next t → Inv P t

/-- From every state with the invariant a step answers a next state: no access leaves a memory, no unwritten word is read,
no arithmetic is without meaning, and no command is without one (60_exceptions R180, 70_reset_and_hazards R219). -/
def Obligations.NoStepStops : Prop := ∀ s : State, Inv P s → ∃ t, step s = .next t

/-- Every memory operation of every command keeps the canonical form, from every state. -/
def Obligations.EveryStepKeepsMemoriesCanonical : Prop :=
  ∀ s t : State, memoryWf s.coef = true → memoryWf s.hist = true → step s = .next t →
    memoryWf t.coef = true ∧ memoryWf t.hist = true

/-- What each command may write, over all commands and states: the table and the configuration only CONFIG, inside the table
and the ring it builds; the history only CONFIG and PUSH, PUSH inside the frame at the cursor; the cursor only CONFIG and
PUSH; the phase only CONFIG, ADVANCE and CONSUME; the fault only READ; RESET every element of the block (40_construct R106,
41_history R121, R125, 10_state R33 to R36, 20_memory R63). No command writes the port; that RESET keeps it is entry 18. The
counter of free values is the model's (entry 8): READ may raise it, and RESET keeps it (entry 18). -/
def Obligations.StateIsWrittenOnlyByItsCommands : Prop :=
  ∀ (i : Instr) (s t : State), exec i s = .next t → t.port = s.port ∧
    match i with
    | .nop _ | .rdreg _ | .reserved _ _ => t = { s with rsp := t.rsp }
    | .config _ => t.fault = s.fault ∧ t.faultCause = s.faultCause ∧ t.partialCmd = s.partialCmd ∧ t.nanReads = s.nanReads ∧
      (∀ a, t.numRows.toNat * t.tapCount.toNat ≤ a → memoryRead t.coef a = memoryRead s.coef a) ∧
      (∀ a, t.histLen.toNat * t.chCount.toNat ≤ a → memoryRead t.hist a = memoryRead s.hist a)
    | .push _ => t = { s with hist := t.hist, cursor := t.cursor, rsp := t.rsp } ∧
      ∀ a, ¬ (histAddress s s.cursor.toNat 0 ≤ a ∧ a < histAddress s s.cursor.toNat 0 + s.chCount.toNat) →
        memoryRead t.hist a = memoryRead s.hist a
    | .read _ => t = { s with fault := t.fault, faultCause := t.faultCause, rsp := t.rsp, nanReads := t.nanReads }
    | .advance _ | .consume _ => t = { s with phase := t.phase, rsp := t.rsp }
    | .reset _ => t.nanReads = s.nanReads

/-- While `FAULT` is set every command answers, and none but a RESET with a legal header and no payload changes anything but
the response stream: the state is frozen and only RESET ends it (60_exceptions R188, R194, R195). -/
def Obligations.FaultFreezesTheStateUntilReset : Prop :=
  ∀ (i : Instr) (s : State), s.fault = true →
    ∃ t, exec i s = .next t ∧ (t = { s with rsp := t.rsp } ∨ i = .reset (plainBody []) ∧ t.fault = false)
end

