-- ==== Sys2Proof/Laws/Config.lean ====
section
/-! SUPPORT. The unknown parameters keep the constraints that 00_scope R8 puts on them. -/

namespace Sys2Proof

theorem Config.params_ok : Config.params.ok := by
  have h1 := Nat.mod_lt Config.rawMaxCoefficients (show 0 < 2 ^ 32 - 8 by decide)
  have h2 := Nat.mod_lt Config.rawMaxChannels (show 0 < 65535 by decide)
  refine ⟨?_, ?_, ?_, ?_⟩
  all_goals simp only [Config.params, Config.maxCoefficients, Config.maxChannels]
  all_goals omega

/-- `MAX_TAPS` is at most half of `MAX_COEFFICIENTS`: it leaves two rows (00_scope R8). -/
theorem Params.maxTaps_le (p : Params) : p.maxTaps ≤ p.maxCoefficients / 2 := by
  unfold Params.maxTaps
  omega

/-- A multiple of 4 that is at most half of `MAX_COEFFICIENTS` is at most `MAX_TAPS` (40_construct R104 checks 5 and 6). -/
theorem Params.le_maxTaps {p : Params} {t : Nat} (h4 : t % 4 = 0) (h : t ≤ p.maxCoefficients / 2) : t ≤ p.maxTaps := by
  unfold Params.maxTaps
  omega

end Sys2Proof
end

