-- ==== Sys2Proof/Laws/Decode.lean ====
section
/-! SUPPORT. What the decoder can answer, said once. -/

namespace Sys2Proof

@[simp] theorem decode_nil : decode [] = .error .noHeader := rfl

/-- Everything the decoder can do with a header in front: wait for the missing words, or give the command of the header's
fields with its payload, and the words after it. -/
theorem decode_cons (h : Word) (ws : List Word) :
    (ws.length < headerLen h ∧ decode (h :: ws) = .error (.payloadMissing (headerLen h - ws.length))) ∨
    (headerLen h ≤ ws.length ∧
      decode (h :: ws) = .ok (Instr.ofOpcode (headerOpc h)
        { rsv := headerRsv h, arg := headerArg h, pay := ws.take (headerLen h) }, ws.drop (headerLen h))) := by
  by_cases hl : ws.length < headerLen h
  · exact .inl ⟨hl, by simp [decode, hl]⟩
  · exact .inr ⟨by omega, by simp [decode, hl]⟩

@[simp] theorem Instr.body_ofOpcode (opc : BitVec 4) (b : CmdBody) : (Instr.ofOpcode opc b).body = b := by
  unfold Instr.ofOpcode
  split <;> rfl

@[simp] theorem Instr.opcode_ofOpcode (opc : BitVec 4) (b : CmdBody) : (Instr.ofOpcode opc b).opcode = opc := by
  have h16 := opc.isLt
  unfold Instr.ofOpcode
  split <;> first | rfl | (apply BitVec.eq_of_toNat_eq; simp_all [Instr.opcode])

theorem CmdBody.wf_iff (b : CmdBody) : b.wf = true ↔ b.pay.length < 65536 := decide_eq_true_iff

@[simp] theorem Instr.wf_reserved_iff (opc : BitVec 4) (b : CmdBody) :
    (Instr.reserved opc b).wf = true ↔ 8 ≤ opc.toNat ∧ b.pay.length < 65536 := by
  unfold Instr.wf
  rw [Bool.and_eq_true, decide_eq_true_iff, CmdBody.wf_iff]

/-- The payload of a well-formed command fits the field `LEN`. -/
theorem Instr.length_lt_of_wf {i : Instr} (h : i.wf = true) : i.body.pay.length < 65536 := by
  cases i with
  | reserved opc b => exact ((Instr.wf_reserved_iff opc b).mp h).2
  | _ b => exact (CmdBody.wf_iff b).mp h

/-- A command of the opcode map is well formed exactly when its payload fits the field `LEN`. -/
theorem Instr.wf_ofOpcode_iff (opc : BitVec 4) (b : CmdBody) :
    (Instr.ofOpcode opc b).wf = true ↔ b.pay.length < 65536 := by
  unfold Instr.ofOpcode
  split <;> first | exact CmdBody.wf_iff b | skip
  rw [Instr.wf_reserved_iff]
  have := opc.isLt
  constructor
  · exact fun h => h.2
  · refine fun h => ⟨?_, h⟩
    simp_all only [imp_false]
    omega

theorem headerLen_lt (h : Word) : headerLen h < 65536 := (h.extractLsb' 0 16).isLt

end Sys2Proof
end

