-- ==== Sys2Proof/Laws/State.lean ====
section
/-! SUPPORT. One lemma per field for each shared update of the state. -/

namespace Sys2Proof.Machine

-- A response only lengthens the response stream.

@[simp] theorem State.answer_cfgValid (ws : List Word) (s : State) : (s.answer ws).cfgValid = s.cfgValid := rfl
@[simp] theorem State.answer_fault (ws : List Word) (s : State) : (s.answer ws).fault = s.fault := rfl
@[simp] theorem State.answer_inRate (ws : List Word) (s : State) : (s.answer ws).inRate = s.inRate := rfl
@[simp] theorem State.answer_outRate (ws : List Word) (s : State) : (s.answer ws).outRate = s.outRate := rfl
@[simp] theorem State.answer_chCount (ws : List Word) (s : State) : (s.answer ws).chCount = s.chCount := rfl
@[simp] theorem State.answer_tapCount (ws : List Word) (s : State) : (s.answer ws).tapCount = s.tapCount := rfl
@[simp] theorem State.answer_cutoff (ws : List Word) (s : State) : (s.answer ws).cutoff = s.cutoff := rfl
@[simp] theorem State.answer_numRows (ws : List Word) (s : State) : (s.answer ws).numRows = s.numRows := rfl
@[simp] theorem State.answer_numerator (ws : List Word) (s : State) : (s.answer ws).numerator = s.numerator := rfl
@[simp] theorem State.answer_denominator (ws : List Word) (s : State) : (s.answer ws).denominator = s.denominator := rfl
@[simp] theorem State.answer_histLen (ws : List Word) (s : State) : (s.answer ws).histLen = s.histLen := rfl
@[simp] theorem State.answer_phase (ws : List Word) (s : State) : (s.answer ws).phase = s.phase := rfl
@[simp] theorem State.answer_cursor (ws : List Word) (s : State) : (s.answer ws).cursor = s.cursor := rfl
@[simp] theorem State.answer_faultCause (ws : List Word) (s : State) : (s.answer ws).faultCause = s.faultCause := rfl
@[simp] theorem State.answer_coef (ws : List Word) (s : State) : (s.answer ws).coef = s.coef := rfl
@[simp] theorem State.answer_hist (ws : List Word) (s : State) : (s.answer ws).hist = s.hist := rfl
@[simp] theorem State.answer_partialCmd (ws : List Word) (s : State) : (s.answer ws).partialCmd = s.partialCmd := rfl
@[simp] theorem State.answer_port (ws : List Word) (s : State) : (s.answer ws).port = s.port := rfl
@[simp] theorem State.answer_rsp (ws : List Word) (s : State) : (s.answer ws).rsp = s.rsp ++ ws := rfl
@[simp] theorem State.answer_nanReads (ws : List Word) (s : State) : (s.answer ws).nanReads = s.nanReads := rfl

-- Other contents of one memory change that memory only.

@[simp] theorem setSpace_cfgValid (sp : Space) (m : Memory) (s : State) : (setSpace sp m s).cfgValid = s.cfgValid := by cases sp <;> rfl
@[simp] theorem setSpace_fault (sp : Space) (m : Memory) (s : State) : (setSpace sp m s).fault = s.fault := by cases sp <;> rfl
@[simp] theorem setSpace_inRate (sp : Space) (m : Memory) (s : State) : (setSpace sp m s).inRate = s.inRate := by cases sp <;> rfl
@[simp] theorem setSpace_outRate (sp : Space) (m : Memory) (s : State) : (setSpace sp m s).outRate = s.outRate := by cases sp <;> rfl
@[simp] theorem setSpace_chCount (sp : Space) (m : Memory) (s : State) : (setSpace sp m s).chCount = s.chCount := by cases sp <;> rfl
@[simp] theorem setSpace_tapCount (sp : Space) (m : Memory) (s : State) : (setSpace sp m s).tapCount = s.tapCount := by cases sp <;> rfl
@[simp] theorem setSpace_cutoff (sp : Space) (m : Memory) (s : State) : (setSpace sp m s).cutoff = s.cutoff := by cases sp <;> rfl
@[simp] theorem setSpace_numRows (sp : Space) (m : Memory) (s : State) : (setSpace sp m s).numRows = s.numRows := by cases sp <;> rfl
@[simp] theorem setSpace_numerator (sp : Space) (m : Memory) (s : State) : (setSpace sp m s).numerator = s.numerator := by cases sp <;> rfl
@[simp] theorem setSpace_denominator (sp : Space) (m : Memory) (s : State) : (setSpace sp m s).denominator = s.denominator := by cases sp <;> rfl
@[simp] theorem setSpace_histLen (sp : Space) (m : Memory) (s : State) : (setSpace sp m s).histLen = s.histLen := by cases sp <;> rfl
@[simp] theorem setSpace_phase (sp : Space) (m : Memory) (s : State) : (setSpace sp m s).phase = s.phase := by cases sp <;> rfl
@[simp] theorem setSpace_cursor (sp : Space) (m : Memory) (s : State) : (setSpace sp m s).cursor = s.cursor := by cases sp <;> rfl
@[simp] theorem setSpace_faultCause (sp : Space) (m : Memory) (s : State) : (setSpace sp m s).faultCause = s.faultCause := by cases sp <;> rfl
@[simp] theorem setSpace_coef_coef (m : Memory) (s : State) : (setSpace .coef m s).coef = m := rfl
@[simp] theorem setSpace_hist_coef (m : Memory) (s : State) : (setSpace .hist m s).coef = s.coef := rfl
@[simp] theorem setSpace_hist_hist (m : Memory) (s : State) : (setSpace .hist m s).hist = m := rfl
@[simp] theorem setSpace_coef_hist (m : Memory) (s : State) : (setSpace .coef m s).hist = s.hist := rfl
@[simp] theorem setSpace_partialCmd (sp : Space) (m : Memory) (s : State) : (setSpace sp m s).partialCmd = s.partialCmd := by cases sp <;> rfl
@[simp] theorem setSpace_port (sp : Space) (m : Memory) (s : State) : (setSpace sp m s).port = s.port := by cases sp <;> rfl
@[simp] theorem setSpace_rsp (sp : Space) (m : Memory) (s : State) : (setSpace sp m s).rsp = s.rsp := by cases sp <;> rfl
@[simp] theorem setSpace_nanReads (sp : Space) (m : Memory) (s : State) : (setSpace sp m s).nanReads = s.nanReads := by cases sp <;> rfl
@[simp] theorem spaceOf_setSpace (sp : Space) (m : Memory) (s : State) : spaceOf sp (setSpace sp m s) = m := by cases sp <;> rfl
@[simp] theorem setSpace_setSpace (sp : Space) (m m' : Memory) (s : State) : setSpace sp m (setSpace sp m' s) = setSpace sp m s := by cases sp <;> rfl
@[simp] theorem setSpace_self (sp : Space) (s : State) : setSpace sp (spaceOf sp s) s = s := by cases sp <;> rfl

-- Destroying the instance keeps the two streams and the model's counter.

@[simp] theorem destroyInstance_cfgValid (s : State) : (destroyInstance s).cfgValid = State.reset.cfgValid := rfl
@[simp] theorem destroyInstance_fault (s : State) : (destroyInstance s).fault = State.reset.fault := rfl
@[simp] theorem destroyInstance_inRate (s : State) : (destroyInstance s).inRate = State.reset.inRate := rfl
@[simp] theorem destroyInstance_outRate (s : State) : (destroyInstance s).outRate = State.reset.outRate := rfl
@[simp] theorem destroyInstance_chCount (s : State) : (destroyInstance s).chCount = State.reset.chCount := rfl
@[simp] theorem destroyInstance_tapCount (s : State) : (destroyInstance s).tapCount = State.reset.tapCount := rfl
@[simp] theorem destroyInstance_cutoff (s : State) : (destroyInstance s).cutoff = State.reset.cutoff := rfl
@[simp] theorem destroyInstance_numRows (s : State) : (destroyInstance s).numRows = State.reset.numRows := rfl
@[simp] theorem destroyInstance_numerator (s : State) : (destroyInstance s).numerator = State.reset.numerator := rfl
@[simp] theorem destroyInstance_denominator (s : State) : (destroyInstance s).denominator = State.reset.denominator := rfl
@[simp] theorem destroyInstance_histLen (s : State) : (destroyInstance s).histLen = State.reset.histLen := rfl
@[simp] theorem destroyInstance_phase (s : State) : (destroyInstance s).phase = State.reset.phase := rfl
@[simp] theorem destroyInstance_cursor (s : State) : (destroyInstance s).cursor = State.reset.cursor := rfl
@[simp] theorem destroyInstance_faultCause (s : State) : (destroyInstance s).faultCause = State.reset.faultCause := rfl
@[simp] theorem destroyInstance_coef (s : State) : (destroyInstance s).coef = State.reset.coef := rfl
@[simp] theorem destroyInstance_hist (s : State) : (destroyInstance s).hist = State.reset.hist := rfl
@[simp] theorem destroyInstance_partialCmd (s : State) : (destroyInstance s).partialCmd = State.reset.partialCmd := rfl
@[simp] theorem destroyInstance_port (s : State) : (destroyInstance s).port = s.port := rfl
@[simp] theorem destroyInstance_rsp (s : State) : (destroyInstance s).rsp = s.rsp := rfl
@[simp] theorem destroyInstance_nanReads (s : State) : (destroyInstance s).nanReads = s.nanReads := rfl

-- The hardware reset also loses the response words in flight.

@[simp] theorem hardwareReset_cfgValid (s : State) : (hardwareReset s).cfgValid = State.reset.cfgValid := rfl
@[simp] theorem hardwareReset_fault (s : State) : (hardwareReset s).fault = State.reset.fault := rfl
@[simp] theorem hardwareReset_inRate (s : State) : (hardwareReset s).inRate = State.reset.inRate := rfl
@[simp] theorem hardwareReset_outRate (s : State) : (hardwareReset s).outRate = State.reset.outRate := rfl
@[simp] theorem hardwareReset_chCount (s : State) : (hardwareReset s).chCount = State.reset.chCount := rfl
@[simp] theorem hardwareReset_tapCount (s : State) : (hardwareReset s).tapCount = State.reset.tapCount := rfl
@[simp] theorem hardwareReset_cutoff (s : State) : (hardwareReset s).cutoff = State.reset.cutoff := rfl
@[simp] theorem hardwareReset_numRows (s : State) : (hardwareReset s).numRows = State.reset.numRows := rfl
@[simp] theorem hardwareReset_numerator (s : State) : (hardwareReset s).numerator = State.reset.numerator := rfl
@[simp] theorem hardwareReset_denominator (s : State) : (hardwareReset s).denominator = State.reset.denominator := rfl
@[simp] theorem hardwareReset_histLen (s : State) : (hardwareReset s).histLen = State.reset.histLen := rfl
@[simp] theorem hardwareReset_phase (s : State) : (hardwareReset s).phase = State.reset.phase := rfl
@[simp] theorem hardwareReset_cursor (s : State) : (hardwareReset s).cursor = State.reset.cursor := rfl
@[simp] theorem hardwareReset_faultCause (s : State) : (hardwareReset s).faultCause = State.reset.faultCause := rfl
@[simp] theorem hardwareReset_coef (s : State) : (hardwareReset s).coef = State.reset.coef := rfl
@[simp] theorem hardwareReset_hist (s : State) : (hardwareReset s).hist = State.reset.hist := rfl
@[simp] theorem hardwareReset_partialCmd (s : State) : (hardwareReset s).partialCmd = State.reset.partialCmd := rfl
@[simp] theorem hardwareReset_port (s : State) : (hardwareReset s).port = s.port := rfl
@[simp] theorem hardwareReset_rsp (s : State) : (hardwareReset s).rsp = [] := rfl
@[simp] theorem hardwareReset_nanReads (s : State) : (hardwareReset s).nanReads = s.nanReads := rfl

-- The registers CONFIG writes.

@[simp] theorem configRegisters_coef (p : Params) (pay : List Word) (s : State) : (configRegisters p pay s).coef = s.coef := rfl
@[simp] theorem configRegisters_hist (p : Params) (pay : List Word) (s : State) : (configRegisters p pay s).hist = s.hist := rfl
@[simp] theorem configRegisters_tapCount (p : Params) (pay : List Word) (s : State) : (configRegisters p pay s).tapCount = payWord pay 3 := rfl
@[simp] theorem configRegisters_chCount (p : Params) (pay : List Word) (s : State) : (configRegisters p pay s).chCount = payWord pay 2 := rfl

end Sys2Proof.Machine
end

