-- ==== Sys2Proof/Laws/Memory.lean ====
section
/-! SUPPORT. The laws of a word memory: read after write, and that every operation keeps the canonical form. -/

namespace Sys2Proof.Machine

@[simp] theorem memoryRead_nil (a : Nat) : memoryRead [] a = none := rfl

theorem memoryRead_write (m : Memory) (a b : Nat) (w : Word) :
    memoryRead (memoryWrite m a w) b = if b = a then some w else memoryRead m b := by
  induction m with
  | nil => simp [memoryWrite, memoryRead]
  | cons c rest ih =>
    obtain ⟨k, v⟩ := c
    by_cases h1 : a < k
    · simp [memoryWrite, h1, memoryRead]
    · by_cases h2 : a = k
      · subst h2
        by_cases hb : b = a <;> simp [memoryWrite, memoryRead, hb]
      · by_cases hb : b = k
        · subst hb
          simp [memoryWrite, h1, h2, memoryRead, Ne.symm h2]
        · simp [memoryWrite, h1, h2, memoryRead, hb, ih]

@[simp] theorem memoryRead_write_same (m : Memory) (a : Nat) (w : Word) :
    memoryRead (memoryWrite m a w) a = some w := by
  simp [memoryRead_write]

theorem memoryRead_write_other (m : Memory) {a b : Nat} (w : Word) (h : b ≠ a) :
    memoryRead (memoryWrite m a w) b = memoryRead m b := by
  simp [memoryRead_write, h]

/-- The canonical form, as every address of the list being below all later ones. -/
theorem memoryWf_iff_pairwise (m : Memory) :
    memoryWf m = true ↔ m.Pairwise (fun x y => x.1 < y.1) := by
  induction m with
  | nil => simp [memoryWf]
  | cons c rest ih =>
    obtain ⟨k, v⟩ := c
    cases rest with
    | nil => simp [memoryWf]
    | cons d rest =>
      obtain ⟨k', v'⟩ := d
      simp only [memoryWf, Bool.and_eq_true, decide_eq_true_eq, ih, List.pairwise_cons]
      constructor
      · rintro ⟨hk, hall, hp⟩
        refine ⟨?_, hall, hp⟩
        intro x hx
        rcases List.mem_cons.mp hx with rfl | hx
        · exact hk
        · exact Nat.lt_trans hk (hall x hx)
      · rintro ⟨hall, hrest⟩
        exact ⟨hall (k', v') (by simp), hrest⟩

theorem mem_memoryWrite {m : Memory} {a : Nat} {w : Word} {x : WordCell} (h : x ∈ memoryWrite m a w) :
    x = (a, w) ∨ x ∈ m := by
  induction m with
  | nil => simp [memoryWrite] at h; exact .inl h
  | cons c rest ih =>
    obtain ⟨k, v⟩ := c
    simp only [memoryWrite] at h
    split at h
    · rcases List.mem_cons.mp h with h | h
      · exact .inl h
      · exact .inr h
    · split at h
      · rcases List.mem_cons.mp h with h | h
        · exact .inl h
        · exact .inr (List.mem_cons_of_mem _ h)
      · rcases List.mem_cons.mp h with h | h
        · exact .inr (h ▸ List.mem_cons_self)
        · rcases ih h with h | h
          · exact .inl h
          · exact .inr (List.mem_cons_of_mem _ h)

/-- A write keeps the canonical form. -/
theorem memoryWf_write {m : Memory} (a : Nat) (w : Word) (h : memoryWf m = true) :
    memoryWf (memoryWrite m a w) = true := by
  rw [memoryWf_iff_pairwise] at h ⊢
  induction m with
  | nil => simp [memoryWrite]
  | cons c rest ih =>
    obtain ⟨k, v⟩ := c
    rw [List.pairwise_cons] at h
    simp only [memoryWrite]
    split
    · next hlt =>
      rw [List.pairwise_cons, List.pairwise_cons]
      refine ⟨?_, h⟩
      intro x hx
      rcases List.mem_cons.mp hx with rfl | hx
      · exact hlt
      · exact Nat.lt_trans hlt (h.1 x hx)
    · split
      · next _ heq =>
        rw [List.pairwise_cons]
        exact ⟨fun x hx => heq ▸ h.1 x hx, h.2⟩
      · next hnlt hne =>
        rw [List.pairwise_cons]
        refine ⟨?_, ih h.2⟩
        intro x hx
        rcases mem_memoryWrite hx with rfl | hx
        · show k < a
          omega
        · exact h.1 x hx

/-- Two canonical memories that read the same everywhere are the same list. -/
theorem memory_ext {m m' : Memory} (h : memoryWf m = true) (h' : memoryWf m' = true)
    (hr : ∀ a, memoryRead m a = memoryRead m' a) : m = m' := by
  rw [memoryWf_iff_pairwise] at h h'
  have read_low : ∀ (l : Memory) (b : Nat), (∀ x ∈ l, b < x.1) → memoryRead l b = none := by
    intro l b hl
    induction l with
    | nil => rfl
    | cons c rest ih =>
      have hc : b < c.1 := hl c (by simp)
      have : b ≠ c.1 := by omega
      simp only [memoryRead, this, if_false]
      exact ih (fun x hx => hl x (List.mem_cons_of_mem _ hx))
  induction m generalizing m' with
  | nil =>
    cases m' with
    | nil => rfl
    | cons c rest => simpa [memoryRead] using hr c.1
  | cons c rest ih =>
    cases m' with
    | nil => simpa [memoryRead] using hr c.1
    | cons d rest' =>
      rw [List.pairwise_cons] at h h'
      have hcd : c.1 = d.1 := by
        rcases Nat.lt_trichotomy c.1 d.1 with hlt | heq | hlt
        · have := hr c.1
          have hn : memoryRead (d :: rest') c.1 = none := by
            apply read_low
            intro x hx
            rcases List.mem_cons.mp hx with rfl | hx
            · exact hlt
            · exact Nat.lt_trans hlt (h'.1 x hx)
          rw [hn] at this
          simp [memoryRead] at this
        · exact heq
        · have := hr d.1
          have hn : memoryRead (c :: rest) d.1 = none := by
            apply read_low
            intro x hx
            rcases List.mem_cons.mp hx with rfl | hx
            · exact hlt
            · exact Nat.lt_trans hlt (h.1 x hx)
          rw [hn] at this
          simp [memoryRead] at this
      have hv : c.2 = d.2 := by simpa [memoryRead, hcd] using hr c.1
      have hrest : rest = rest' := by
        refine ih h.2 h'.2 (fun a => ?_)
        by_cases ha : a = c.1
        · rw [read_low rest a (fun x hx => ha ▸ h.1 x hx), read_low rest' a (fun x hx => ha ▸ hcd ▸ h'.1 x hx)]
        · have := hr a
          have had : a ≠ d.1 := hcd ▸ ha
          simpa [memoryRead, ha, had] using this
      rw [hrest, Prod.ext hcd hv]

/-- The memory that holds `f a` at each of the `n` addresses from `m` up, and nothing else. -/
def tabulate (m n : Nat) (f : Nat → Word) : Memory := (List.range' m n).map (fun a => (a, f a))

theorem memoryRead_tabulate (m n : Nat) (f : Nat → Word) (a : Nat) :
    memoryRead (tabulate m n f) a = if m ≤ a ∧ a < m + n then some (f a) else none := by
  induction n generalizing m with
  | zero =>
    rw [if_neg (by omega)]
    rfl
  | succ n ih =>
    show (if a = m then some (f m) else memoryRead (tabulate (m + 1) n f) a) = _
    by_cases h : a = m
    · subst h
      rw [if_pos rfl, if_pos (by omega)]
    · rw [if_neg h, ih (m + 1)]
      by_cases h1 : m ≤ a ∧ a < m + (n + 1)
      · rw [if_pos h1, if_pos (by omega)]
      · rw [if_neg h1, if_neg (by omega)]

theorem memoryWf_tabulate (m n : Nat) (f : Nat → Word) : memoryWf (tabulate m n f) = true := by
  rw [memoryWf_iff_pairwise, tabulate, List.pairwise_map]
  exact List.pairwise_lt_range'

end Sys2Proof.Machine
end

