-- ==== Sys2Proof/Laws/Ops.lean ====
section
/-! SUPPORT. What each shared operation can do, said once. -/

namespace Sys2Proof.Machine

/-- Everything a memory read can answer. -/
theorem memRead_eq_ok_iff {p : Params} {sp : Space} {a : Nat} {s : State} {w : Word} :
    memRead p sp a s = .ok w ↔ a < capacity p sp ∧ memoryRead (spaceOf sp s) a = some w := by
  unfold memRead
  by_cases h : a < capacity p sp
  · cases hm : memoryRead (spaceOf sp s) a <;> simp [h]
  · simp [h]

/-- Everything a memory write can do. -/
theorem memWrite_eq_ok_iff {p : Params} {sp : Space} {a : Nat} {v : Word} {s t : State} :
    memWrite p sp a v s = .ok t ↔ a < capacity p sp ∧ t = setSpace sp (memoryWrite (spaceOf sp s) a v) s := by
  unfold memWrite
  by_cases h : a < capacity p sp <;> simp [h, eq_comm]

/-- Successive writes as one update of the memory. -/
def writeAll : Nat → List Word → Memory → Memory
  | _, [], m => m
  | a, w :: ws, m => writeAll (a + 1) ws (memoryWrite m a w)

theorem memoryRead_writeAll (a b : Nat) (ws : List Word) (m : Memory) :
    memoryRead (writeAll a ws m) b = if a ≤ b ∧ b < a + ws.length then ws[b - a]? else memoryRead m b := by
  induction ws generalizing a m with
  | nil =>
    rw [if_neg (by simp only [List.length_nil]; omega), writeAll]
  | cons w ws ih =>
    rw [writeAll, ih, memoryRead_write, List.length_cons]
    by_cases h1 : a + 1 ≤ b ∧ b < a + 1 + ws.length
    · have h2 : a ≤ b ∧ b < a + (ws.length + 1) := by omega
      have h3 : b - a = (b - (a + 1)) + 1 := by omega
      rw [if_pos h1, if_pos h2, h3, List.getElem?_cons_succ]
    · rw [if_neg h1]
      by_cases h2 : b = a
      · subst h2
        simp
      · have h3 : ¬ (a ≤ b ∧ b < a + (ws.length + 1)) := by omega
        rw [if_neg h2, if_neg h3]

theorem memoryWf_writeAll (a : Nat) (ws : List Word) {m : Memory} (h : memoryWf m = true) :
    memoryWf (writeAll a ws m) = true := by
  induction ws generalizing a m with
  | nil => exact h
  | cons w ws ih => exact ih (a + 1) (memoryWf_write a w h)

/-- Successive writes succeed when they fit the memory's capacity, and they change that memory only. -/
theorem memWriteWords_of_fits {p : Params} {sp : Space} {a : Nat} {ws : List Word} {s : State}
    (h : ws = [] ∨ a + ws.length ≤ capacity p sp) :
    memWriteWords p sp a ws s = .ok (setSpace sp (writeAll a ws (spaceOf sp s)) s) := by
  induction ws generalizing a s with
  | nil => simp [memWriteWords, writeAll]
  | cons w ws ih =>
    have hfit : a + (ws.length + 1) ≤ capacity p sp := by simpa using h
    have hw : memWrite p sp a w s = .ok (setSpace sp (memoryWrite (spaceOf sp s) a w) s) :=
      memWrite_eq_ok_iff.mpr ⟨by omega, rfl⟩
    rw [memWriteWords, hw]
    show memWriteWords p sp (a + 1) ws _ = _
    rw [ih (.inr (by omega))]
    simp [writeAll]

/-- Successive writes that succeed have fitted: everything they can do. -/
theorem memWriteWords_eq_ok {p : Params} {sp : Space} {a : Nat} {ws : List Word} {s t : State}
    (h : memWriteWords p sp a ws s = .ok t) : t = setSpace sp (writeAll a ws (spaceOf sp s)) s := by
  induction ws generalizing a s with
  | nil =>
    simp only [memWriteWords, Except.ok.injEq] at h
    simp [writeAll, h]
  | cons w ws ih =>
    unfold memWriteWords at h
    cases hw : memWrite p sp a w s with
    | error f => simp [hw] at h
    | ok s' =>
      simp only [hw] at h
      have hs' := (memWrite_eq_ok_iff.mp hw).2
      rw [ih h, hs']
      simp [writeAll]

/-- `forEach` answers a list exactly when the function answers that list, element by element. -/
theorem forEach_eq_ok_iff {α β : Type} {f : α → Except Fault β} {as : List α} {bs : List β} :
    forEach f as = .ok bs ↔ as.map f = bs.map .ok := by
  induction as generalizing bs with
  | nil => cases bs <;> simp [forEach]
  | cons a as ih =>
    unfold forEach
    cases bs with
    | nil => cases f a <;> cases forEach f as <;> simp
    | cons b bs =>
      rw [List.map_cons, List.map_cons, List.cons_eq_cons, ← ih]
      cases f a <;> cases forEach f as <;> simp

/-- A list answered element by element by total answers. -/
theorem forEach_of_forall {α β : Type} {f : α → Except Fault β} {g : α → β} {as : List α} (h : ∀ a ∈ as, f a = .ok (g a)) :
    forEach f as = .ok (as.map g) := by
  rw [forEach_eq_ok_iff, List.map_map]
  exact List.map_congr_left h

/-- A response is always the next state. -/
@[simp] theorem respond_eq (opc : BitVec 4) (st : Status) (pay : List Word) (s : State) :
    respond opc st pay s = .next (s.answer (rspHeader opc st s pay.length :: pay)) := rfl

/-- An error answers the next state and changes nothing but the response stream (60_exceptions R181). -/
@[simp] theorem raiseError_eq (opc : BitVec 4) (e : Status) (info : List Word) (s : State) :
    raiseError opc e info s = .next (s.answer (rspHeader opc e s info.length :: info)) := rfl

/-- Fault entry answers the next state with `FAULT` and `FAULT_CAUSE` set and nothing else changed (60_exceptions R193). -/
@[simp] theorem enterFault_eq (opc : BitVec 4) (s : State) :
    enterFault opc s = .next (State.answer [rspHeader opc .faultInvariant { s with fault := true, faultCause := 1 } 0]
      { s with fault := true, faultCause := 1 }) := rfl

/-- The common checks pass: a header that spells the command, an unfaulted block where one is needed, the right state and
the right length (60_exceptions R191). -/
theorem protocolError_eq_none_iff {req : Requires} {usesArg : Bool} {n : Nat} {b : CmdBody} {s : State} :
    protocolError req usesArg n b s = none ↔
      b.rsv = 0 ∧ (usesArg = true ∨ b.arg = 0) ∧ refusedAsFaulted req s = false ∧ refusedByState req s = false
        ∧ b.pay.length = n := by
  unfold protocolError
  by_cases hr : b.rsv = 0 <;> by_cases ha : b.arg = 0 <;> cases usesArg <;> (repeat' split) <;> simp_all

/-- The common checks raise only the four common errors. -/
theorem protocolError_cases {req : Requires} {usesArg : Bool} {n : Nat} {b : CmdBody} {s : State} {e : Status}
    (h : protocolError req usesArg n b s = some e) :
    e = .errIllegal ∨ e = .errFaulted ∨ e = .errState ∨ e = .errLength := by
  unfold protocolError at h
  repeat' split at h
  all_goals simp_all

/-- Everything a command can do: answer a common error and change nothing but the response stream, or pass the checks and
have its own effect. -/
theorem command_cases (opc : BitVec 4) (req : Requires) (usesArg : Bool) (n : Nat) (b : CmdBody) (s : State) (eff : Result) :
    (∃ e, protocolError req usesArg n b s = some e ∧
      command opc req usesArg n b s eff = .next (s.answer [rspHeader opc e s 0])) ∨
    (protocolError req usesArg n b s = none ∧ command opc req usesArg n b s eff = eff) := by
  unfold command
  cases h : protocolError req usesArg n b s with
  | some e => exact .inl ⟨e, rfl, by simp⟩
  | none => exact .inr ⟨rfl, rfl⟩

theorem command_of_checks {opc : BitVec 4} {req : Requires} {usesArg : Bool} {n : Nat} {b : CmdBody} {s : State} {eff : Result}
    (h : protocolError req usesArg n b s = none) : command opc req usesArg n b s eff = eff := by
  simp [command, h]

theorem command_of_error {opc : BitVec 4} {req : Requires} {usesArg : Bool} {n : Nat} {b : CmdBody} {s : State} {eff : Result}
    {e : Status} (h : protocolError req usesArg n b s = some e) :
    command opc req usesArg n b s eff = .next (s.answer [rspHeader opc e s 0]) := by
  simp [command, h]

/-- An effect that may stop at an access answers a next state only past the access. -/
theorem orStop_eq_next_iff {α : Type} {x : Except Fault α} {k : α → Result} {t : State} :
    orStop x k = .next t ↔ ∃ a, x = .ok a ∧ k a = .next t := by
  cases x <;> simp [orStop]

end Sys2Proof.Machine
end

