-- ==== Sys2Proof/Laws/PerInstr.lean ====
section
/-! SUPPORT. The per-instruction family EncodedHeader: the header word of every well-formed command carries its opcode, its
fields and its payload's length, where 30_encoding R71 puts them. -/

namespace Sys2Proof.Laws.EncodedHeader

/-- The four fields of the encoded header word are the command's own (30_encoding R71). -/
def Statement (i : Instr) : Prop :=
  i.wf = true →
    headerOpc (header i) = i.opcode ∧ headerRsv (header i) = i.body.rsv ∧ headerArg (header i) = i.body.arg ∧
      headerLen (header i) = i.body.pay.length

/-- The fields of a word put together from four fields. -/
theorem fields_of_append (o r : BitVec 4) (a : BitVec 8) (n : Nat) (hn : n < 65536) :
    headerOpc (o ++ r ++ a ++ BitVec.ofNat 16 n) = o ∧ headerRsv (o ++ r ++ a ++ BitVec.ofNat 16 n) = r ∧
      headerArg (o ++ r ++ a ++ BitVec.ofNat 16 n) = a ∧ headerLen (o ++ r ++ a ++ BitVec.ofNat 16 n) = n := by
  have ho := o.isLt
  have hr := r.isLt
  have ha := a.isLt
  have hw : (o ++ r ++ a ++ BitVec.ofNat 16 n : Word).toNat
      = ((o.toNat * 16 + r.toNat) * 256 + a.toNat) * 65536 + n := by
    simp only [BitVec.toNat_append, BitVec.toNat_ofNat, Nat.mod_eq_of_lt hn]
    rw [← Nat.shiftLeft_add_eq_or_of_lt hr, ← Nat.shiftLeft_add_eq_or_of_lt ha, ← Nat.shiftLeft_add_eq_or_of_lt hn]
    simp only [Nat.shiftLeft_eq]
  refine ⟨?_, ?_, ?_, ?_⟩
  · apply BitVec.eq_of_toNat_eq
    simp only [headerOpc, BitVec.extractLsb'_toNat, hw, Nat.shiftRight_eq_div_pow]
    omega
  · apply BitVec.eq_of_toNat_eq
    simp only [headerRsv, BitVec.extractLsb'_toNat, hw, Nat.shiftRight_eq_div_pow]
    omega
  · apply BitVec.eq_of_toNat_eq
    simp only [headerArg, BitVec.extractLsb'_toNat, hw, Nat.shiftRight_eq_div_pow]
    omega
  · simp only [headerLen, BitVec.extractLsb'_toNat, hw, Nat.shiftRight_eq_div_pow]
    omega

theorem of_length {i : Instr} (h : i.body.pay.length < 65536) :
    headerOpc (header i) = i.opcode ∧ headerRsv (header i) = i.body.rsv ∧ headerArg (header i) = i.body.arg ∧
      headerLen (header i) = i.body.pay.length :=
  fields_of_append i.opcode i.body.rsv i.body.arg i.body.pay.length h

theorem nop (b : CmdBody) : Statement (.nop b) := fun h => of_length (Instr.length_lt_of_wf h)
theorem config (b : CmdBody) : Statement (.config b) := fun h => of_length (Instr.length_lt_of_wf h)
theorem push (b : CmdBody) : Statement (.push b) := fun h => of_length (Instr.length_lt_of_wf h)
theorem read (b : CmdBody) : Statement (.read b) := fun h => of_length (Instr.length_lt_of_wf h)
theorem advance (b : CmdBody) : Statement (.advance b) := fun h => of_length (Instr.length_lt_of_wf h)
theorem consume (b : CmdBody) : Statement (.consume b) := fun h => of_length (Instr.length_lt_of_wf h)
theorem rdreg (b : CmdBody) : Statement (.rdreg b) := fun h => of_length (Instr.length_lt_of_wf h)
theorem reset (b : CmdBody) : Statement (.reset b) := fun h => of_length (Instr.length_lt_of_wf h)

theorem reserved (opc : BitVec 4) (b : CmdBody) : Statement (.reserved opc b) := fun h =>
  of_length (Instr.length_lt_of_wf h)

end Sys2Proof.Laws.EncodedHeader
end

