-- ==== Sys2Proof/Laws/Step.lean ====
section
/-! SUPPORT. Which port event a step takes, and everything a step can do, said once. -/

namespace Sys2Proof.Machine

/-- A port event that is no offer of a command word. -/
def PortEvent.isAction : PortEvent → Bool
  | .cmdWord _ => false
  | _ => true

/-- Behind any number of offered command words, the first other event is the one found, and the offers stay in order. -/
theorem pastOffers_offers (ws : List Word) (es : List PortEvent) :
    pastOffers (ws.map .cmdWord ++ es) = (pastOffers es).map (fun r => (r.1, ws.map .cmdWord ++ r.2)) := by
  induction ws with
  | nil => cases h : pastOffers es <;> simp [h]
  | cons w ws ih => simp [pastOffers, ih, Function.comp_def]

theorem pastOffers_action {e : PortEvent} (es : List PortEvent) (h : e.isAction = true) :
    pastOffers (e :: es) = some (e, es) := by
  cases e with
  | cmdWord w => cases h
  | rspTaken => rfl
  | rst => rfl

/-- A list of port events holds offers only, or offers and then another event. -/
theorem offers_cases (es : List PortEvent) :
    (∃ ws : List Word, es = ws.map .cmdWord) ∨
      ∃ (ws : List Word) (e : PortEvent) (es' : List PortEvent), es = ws.map .cmdWord ++ e :: es' ∧ e.isAction = true := by
  induction es with
  | nil => exact .inl ⟨[], rfl⟩
  | cons e es ih =>
    cases e with
    | cmdWord w =>
      rcases ih with ⟨ws, rfl⟩ | ⟨ws, e, es', rfl, he⟩
      · exact .inl ⟨w :: ws, rfl⟩
      · exact .inr ⟨w :: ws, e, es', rfl, he⟩
    | rspTaken => exact .inr ⟨[], .rspTaken, es, rfl, rfl⟩
    | rst => exact .inr ⟨[], .rst, es, rfl, rfl⟩

/-- With no response word waiting the next event is the first. -/
theorem nextEvent_of_taken {s : State} (h : s.rsp = []) :
    nextEvent s = s.port.head?.map (fun e => (e, s.port.tail)) := by
  simp [nextEvent, h]

/-- With a response word waiting the next event is the first that is no offer. -/
theorem nextEvent_of_waiting {s : State} (h : s.rsp ≠ []) : nextEvent s = pastOffers s.port := by
  unfold nextEvent
  split
  · contradiction
  · rfl

/-- An event that is no offer is taken behind the offers the block does not accept: none, if no response word waits. -/
theorem nextEvent_action {s : State} {ws : List Word} {e : PortEvent} {es : List PortEvent}
    (hp : s.port = ws.map .cmdWord ++ e :: es) (he : e.isAction = true) (hw : ws = [] ∨ s.rsp ≠ []) :
    nextEvent s = some (e, ws.map .cmdWord ++ es) := by
  by_cases hr : s.rsp = []
  · have : ws = [] := by simpa [hr] using hw
    subst this
    simp [nextEvent_of_taken hr, hp]
  · rw [nextEvent_of_waiting hr, hp, pastOffers_offers, pastOffers_action es he]
    rfl

/-- Everything `nextEvent` can answer. -/
theorem nextEvent_cases (s : State) :
    (nextEvent s = none ∧ (s.port = [] ∨ s.rsp ≠ [] ∧ ∃ ws : List Word, s.port = ws.map .cmdWord)) ∨
    (∃ w es, s.rsp = [] ∧ s.port = .cmdWord w :: es ∧ nextEvent s = some (.cmdWord w, es)) ∨
    (∃ (ws : List Word) (e : PortEvent) (es : List PortEvent), s.port = ws.map .cmdWord ++ e :: es ∧ e.isAction = true ∧
      (ws = [] ∨ s.rsp ≠ []) ∧ nextEvent s = some (e, ws.map .cmdWord ++ es)) := by
  by_cases hr : s.rsp = []
  · cases hp : s.port with
    | nil => exact .inl ⟨by simp [nextEvent_of_taken hr, hp], .inl rfl⟩
    | cons e es =>
      cases e with
      | cmdWord w => exact .inr (.inl ⟨w, es, hr, rfl, by simp [nextEvent_of_taken hr, hp]⟩)
      | rspTaken => exact .inr (.inr ⟨[], .rspTaken, es, rfl, rfl, .inl rfl, nextEvent_action (ws := []) hp rfl (.inl rfl)⟩)
      | rst => exact .inr (.inr ⟨[], .rst, es, rfl, rfl, .inl rfl, nextEvent_action (ws := []) hp rfl (.inl rfl)⟩)
  · rcases offers_cases s.port with ⟨ws, hp⟩ | ⟨ws, e, es, hp, he⟩
    · refine .inl ⟨?_, .inr ⟨hr, ws, hp⟩⟩
      have h := pastOffers_offers ws []
      rw [List.append_nil] at h
      rw [nextEvent_of_waiting hr, hp, h]
      rfl
    · exact .inr (.inr ⟨ws, e, es, hp, he, .inr hr, nextEvent_action hp he (.inr hr)⟩)

theorem step_of_no_event {s : State} (h : nextEvent s = none) : step s = .next s := by
  simp [step, fetch, h]

theorem step_of_rspTaken {s : State} {es : List PortEvent} (h : nextEvent s = some (.rspTaken, es)) :
    step s = .next { s with port := es, rsp := s.rsp.drop 1 } := by
  simp [step, fetch, h, takeEvent]

theorem step_of_rst {s : State} {es : List PortEvent} (h : nextEvent s = some (.rst, es)) :
    step s = .next (hardwareReset { s with port := es }) := by
  simp [step, fetch, h, takeEvent]

/-- A command word at the front is taken when no response word waits. -/
theorem nextEvent_cmdWord {s : State} {w : Word} {es : List PortEvent} (hr : s.rsp = []) (hp : s.port = .cmdWord w :: es) :
    nextEvent s = some (.cmdWord w, es) := by
  simp [nextEvent_of_taken hr, hp]

theorem step_of_partial {s : State} {w : Word} {es : List PortEvent} {r : DecodeReject}
    (h : nextEvent s = some (.cmdWord w, es)) (hd : decode (s.partialCmd ++ [w]) = .error r) :
    step s = .next { s with port := es, partialCmd := s.partialCmd ++ [w] } := by
  simp [step, fetch, h, takeEvent, acceptWord, hd]

theorem step_of_command {s : State} {w : Word} {es : List PortEvent} {i : Instr} {rest : List Word}
    (h : nextEvent s = some (.cmdWord w, es)) (hd : decode (s.partialCmd ++ [w]) = .ok (i, rest)) :
    step s = exec i { s with port := es, partialCmd := rest } := by
  simp [step, fetch, h, takeEvent, acceptWord, hd]

/-- The five things a step can do: wait for the driver, hand over a response word, take the hardware reset, take in a word
of a command that is not complete, or run the command that a word completes; a word is taken only when no response word
waits. -/
theorem step_cases (s : State) :
    (nextEvent s = none ∧ step s = .next s) ∨
    (∃ es, nextEvent s = some (.rspTaken, es) ∧ step s = .next { s with port := es, rsp := s.rsp.drop 1 }) ∨
    (∃ es, nextEvent s = some (.rst, es) ∧ step s = .next (hardwareReset { s with port := es })) ∨
    (∃ w es r, s.rsp = [] ∧ s.port = .cmdWord w :: es ∧ decode (s.partialCmd ++ [w]) = .error r ∧
      step s = .next { s with port := es, partialCmd := s.partialCmd ++ [w] }) ∨
    (∃ w es i rest, s.rsp = [] ∧ s.port = .cmdWord w :: es ∧ decode (s.partialCmd ++ [w]) = .ok (i, rest) ∧
      step s = exec i { s with port := es, partialCmd := rest }) := by
  rcases nextEvent_cases s with ⟨h, -⟩ | ⟨w, es, hr, hp, h⟩ | ⟨ws, e, es, -, he, -, h⟩
  · exact .inl ⟨h, step_of_no_event h⟩
  · cases hd : decode (s.partialCmd ++ [w]) with
    | error r => exact .inr (.inr (.inr (.inl ⟨w, es, r, hr, hp, hd, step_of_partial h hd⟩)))
    | ok ir => exact .inr (.inr (.inr (.inr ⟨w, es, ir.1, ir.2, hr, hp, hd, step_of_command h hd⟩)))
  · cases e with
    | cmdWord w => cases he
    | rspTaken => exact .inr (.inl ⟨_, h, step_of_rspTaken h⟩)
    | rst => exact .inr (.inr (.inl ⟨_, h, step_of_rst h⟩))

end Sys2Proof.Machine
end

