-- ==== Sys2Proof/Laws/Streams.lean ====
section
/-! SUPPORT. No command reads the port or the responses still to be taken: with other streams it does the same and adds the
same response words. -/

namespace Sys2Proof.Machine

/-- The state with other streams. -/
def State.withStreams (port : List PortEvent) (rsp : List Word) (s : State) : State := { s with port := port, rsp := rsp }

/-- An effect that only adds response words and does the same whatever the two streams hold. -/
def StreamFree (effect : State → Result) : Prop :=
  ∀ (s t : State), effect s = .next t → ∃ out, t.rsp = s.rsp ++ out ∧
    ∀ port rsp, effect (s.withStreams port rsp) = .next (t.withStreams port (rsp ++ out))

/-- An update of the state that keeps the responses and does the same whatever the two streams hold. -/
def StreamFreeUpdate (g : State → State) : Prop :=
  (∀ s, (g s).rsp = s.rsp) ∧ ∀ s port rsp, g (s.withStreams port rsp) = (g s).withStreams port rsp

theorem streamFree_respond {opc : BitVec 4} {st : Status} {pay : State → List Word} {g : State → State}
    (hg : StreamFreeUpdate g) (hp : ∀ s port rsp, pay (s.withStreams port rsp) = pay s) :
    StreamFree (fun s => respond opc st (pay s) (g s)) := by
  intro s t h
  injection h with h
  subst h
  refine ⟨rspHeader opc st (g s) (pay s).length :: pay s, by rw [State.answer_rsp, hg.1], fun port rsp => ?_⟩
  show respond opc st _ _ = _
  rw [hp, hg.2]
  rfl

theorem streamFree_refuse {opc : BitVec 4} {e : Status} {pay : List Word} : StreamFree (raiseError opc e pay) :=
  streamFree_respond (pay := fun _ => pay) (g := id) ⟨fun _ => rfl, fun _ _ _ => rfl⟩ (fun _ _ _ => rfl)

/-- A choice between two such effects, on a condition that does not depend on the streams. -/
theorem streamFree_ite {c : State → Prop} [DecidablePred c] {f g : State → Result}
    (hc : ∀ s port rsp, c (s.withStreams port rsp) ↔ c s) (hf : StreamFree f) (hg : StreamFree g) :
    StreamFree (fun s => if c s then f s else g s) := by
  intro s t h
  by_cases hs : c s
  · obtain ⟨out, h1, h2⟩ := hf s t (by simpa only [hs, if_true] using h)
    exact ⟨out, h1, fun port rsp => by simpa only [hc, hs, if_true] using h2 port rsp⟩
  · obtain ⟨out, h1, h2⟩ := hg s t (by simpa only [hs, if_false] using h)
    exact ⟨out, h1, fun port rsp => by simpa only [hc, hs, if_false] using h2 port rsp⟩

theorem streamFree_fault (f : Fault) : StreamFree (fun _ => .fault f) := fun _ _ h => by cases h

/-- A command whose own effect does not depend on the streams does not depend on them. -/
theorem streamFree_command {opc : BitVec 4} {req : Requires} {ua : Bool} {n : State → Nat} {b : CmdBody}
    {effect : State → Result} (hn : ∀ s port rsp, n (s.withStreams port rsp) = n s) (he : StreamFree effect) :
    StreamFree (fun s => command opc req ua (n s) b s (effect s)) := by
  have hpe : ∀ (s : State) port rsp, protocolError req ua (n (s.withStreams port rsp)) b (s.withStreams port rsp)
      = protocolError req ua (n s) b s := by
    intro s port rsp
    rw [hn]
    cases req <;> rfl
  intro s t h
  cases hs : protocolError req ua (n s) b s with
  | none =>
    obtain ⟨out, h1, h2⟩ := he s t (by simpa only [command, hs] using h)
    exact ⟨out, h1, fun port rsp => by simpa only [command, hpe, hs] using h2 port rsp⟩
  | some e =>
    obtain ⟨out, h1, h2⟩ := streamFree_refuse (opc := opc) (e := e) (pay := []) s t (by simpa only [command, hs] using h)
    exact ⟨out, h1, fun port rsp => by simpa only [command, hpe, hs] using h2 port rsp⟩

/-- Successive writes do the same whatever the two streams hold. -/
theorem memWriteWords_withStreams (p : Params) (sp : Space) (a : Nat) (ws : List Word) (s : State) (port : List PortEvent)
    (rsp : List Word) :
    memWriteWords p sp a ws (s.withStreams port rsp) = (memWriteWords p sp a ws s).map (State.withStreams port rsp) := by
  induction ws generalizing a s with
  | nil => rfl
  | cons w ws ih =>
    simp only [memWriteWords, memWrite]
    by_cases h : a < capacity p sp
    · have hs : setSpace sp (memoryWrite (spaceOf sp (s.withStreams port rsp)) a w) (s.withStreams port rsp)
          = (setSpace sp (memoryWrite (spaceOf sp s) a w) s).withStreams port rsp := by cases sp <;> rfl
      simp only [h, if_true, hs, ih]
    · simp only [h, if_false]
      rfl

theorem memWriteWords_rsp {p : Params} {sp : Space} {a : Nat} {ws : List Word} {s t : State}
    (h : memWriteWords p sp a ws s = .ok t) : t.rsp = s.rsp := by
  rw [memWriteWords_eq_ok h, setSpace_rsp]

/-- An effect that stops where `x` stops and otherwise answers as `k` does with what `x` gives. -/
theorem streamFree_orStop_state {x : State → Except Fault State} {k : State → Result}
    (hx : ∀ s port rsp, x (s.withStreams port rsp) = (x s).map (State.withStreams port rsp))
    (hr : ∀ s u, x s = .ok u → u.rsp = s.rsp) (hk : StreamFree k) : StreamFree (fun s => orStop (x s) k) := by
  intro s t h
  obtain ⟨u, hu, ht⟩ := orStop_eq_next_iff.mp h
  obtain ⟨out, h1, h2⟩ := hk u t ht
  refine ⟨out, by rw [h1, hr s u hu], fun port rsp => ?_⟩
  show orStop (x _) k = _
  rw [hx, hu]
  exact h2 port rsp

/-- The same for what `x` reads from the state. -/
theorem streamFree_orStop {α : Type} {x : State → Except Fault α} {k : α → State → Result}
    (hx : ∀ s port rsp, x (s.withStreams port rsp) = x s) (hk : ∀ a, StreamFree (k a)) :
    StreamFree (fun s => orStop (x s) (fun a => k a s)) := by
  intro s t h
  obtain ⟨a, ha, ht⟩ := orStop_eq_next_iff.mp h
  obtain ⟨out, h1, h2⟩ := hk a s t ht
  refine ⟨out, h1, fun port rsp => ?_⟩
  show orStop (x _) _ = _
  rw [hx, ha]
  exact h2 port rsp

theorem streamFree_config (b : CmdBody) : StreamFree (execConfig b) := by
  refine streamFree_command (n := fun _ => 5) (effect := configEffect Config.params b) (fun _ _ _ => rfl) ?_
  by_cases he : configErrors Config.params b.pay ≠ 0
  · rw [show configEffect Config.params b = raiseError 0x1 .errConfig [configErrors Config.params b.pay] from
      funext (fun s => if_pos he)]
    exact streamFree_refuse
  · rw [show configEffect Config.params b = fun s => orStop (buildInstance Config.params b.pay s) (respond 0x1 .ok []) from
      funext (fun s => if_neg he)]
    refine streamFree_orStop_state ?_ ?_
      (streamFree_respond (pay := fun _ => []) (g := id) ⟨fun _ => rfl, fun _ _ _ => rfl⟩ (fun _ _ _ => rfl))
    · intro s port rsp
      have hr : configRegisters Config.params b.pay (s.withStreams port rsp)
          = (configRegisters Config.params b.pay s).withStreams port rsp := rfl
      have ht : coefTable Config.params ((configRegisters Config.params b.pay s).withStreams port rsp)
          = coefTable Config.params (configRegisters Config.params b.pay s) := rfl
      simp only [buildInstance, hr, ht, memWriteWords_withStreams]
      cases memWriteWords Config.params .coef 0 (coefTable Config.params (configRegisters Config.params b.pay s))
          (configRegisters Config.params b.pay s) with
      | error f => rfl
      | ok u => exact memWriteWords_withStreams _ _ _ (silence u) u port rsp
    · intro s u hu
      unfold buildInstance at hu
      split at hu
      · cases hu
      · next v hv => rw [memWriteWords_rsp hu, memWriteWords_rsp hv]; rfl

theorem streamFree_push (b : CmdBody) : StreamFree (execPush b) := by
  refine streamFree_command (n := fun s => s.chCount.toNat) (effect := pushEffect Config.params b) (fun _ _ _ => rfl) ?_
  intro s t h
  unfold pushEffect at h
  split at h
  · cases h
  · next hl =>
    obtain ⟨u, hu, ht⟩ := orStop_eq_next_iff.mp h
    obtain ⟨out, h1, h2⟩ := streamFree_respond (opc := 0x2) (st := .ok) (pay := fun _ => [])
      (g := fun v => { v with cursor := nextCursor s }) ⟨fun _ => rfl, fun _ _ _ => rfl⟩ (fun _ _ _ => rfl) u t ht
    refine ⟨out, by rw [h1, memWriteWords_rsp hu], fun port rsp => ?_⟩
    have hl' : ¬ (s.withStreams port rsp).histLen.toNat = 0 := hl
    have hw := memWriteWords_withStreams Config.params .hist (histAddress s s.cursor.toNat 0) b.pay s port rsp
    rw [hu] at hw
    unfold pushEffect
    rw [if_neg hl']
    show orStop (memWriteWords Config.params .hist (histAddress s s.cursor.toNat 0) b.pay (s.withStreams port rsp)) _ = _
    rw [hw]
    exact h2 port rsp

theorem streamFree_read (b : CmdBody) : StreamFree (execRead b) := by
  refine streamFree_command (n := fun _ => 0) (effect := readEffect Config.params) (fun _ _ _ => rfl) ?_
  refine streamFree_ite (c := fun s => selectorDefined s = false) (fun _ _ _ => Iff.rfl) (streamFree_fault _) ?_
  refine streamFree_ite (c := fun s => s.numRows.toNat ≤ indexHigh s) (fun _ _ _ => Iff.rfl)
    (streamFree_respond (pay := fun _ => []) (g := fun s => { s with fault := true, faultCause := 1 })
      ⟨fun _ => rfl, fun _ _ _ => rfl⟩ (fun _ _ _ => rfl)) ?_
  refine streamFree_ite (c := fun s => windowDefined s = false) (fun _ _ _ => Iff.rfl) (streamFree_fault _) ?_
  exact streamFree_orStop (x := outputFrame Config.params)
    (k := fun out s => respond 0x3 .ok out { s with nanReads := s.nanReads + 1 }) (fun _ _ _ => rfl)
    (fun out => streamFree_respond (pay := fun _ => out) (g := fun s => { s with nanReads := s.nanReads + 1 })
      ⟨fun _ => rfl, fun _ _ _ => rfl⟩ (fun _ _ _ => rfl))

theorem streamFree_rdreg (b : CmdBody) : StreamFree (execRdreg b) := by
  refine streamFree_command (n := fun _ => 0) (effect := rdregEffect Config.params b) (fun _ _ _ => rfl) ?_
  intro s t h
  have hreg (port : List PortEvent) (rsp : List Word) : readRegister Config.params b.arg (s.withStreams port rsp)
      = readRegister Config.params b.arg s := rfl
  cases hr : readRegister Config.params b.arg s with
  | none =>
    obtain ⟨out, h1, h2⟩ := streamFree_refuse (opc := 0x6) (e := .errReg) (pay := []) s t
      (by simpa only [rdregEffect, hr] using h)
    exact ⟨out, h1, fun port rsp => by simpa only [rdregEffect, hreg, hr] using h2 port rsp⟩
  | some w =>
    obtain ⟨out, h1, h2⟩ := streamFree_respond (opc := 0x6) (st := .ok) (pay := fun _ => [w]) (g := id)
      ⟨fun _ => rfl, fun _ _ _ => rfl⟩ (fun _ _ _ => rfl) s t (by simpa only [rdregEffect, hr, id_eq] using h)
    exact ⟨out, h1, fun port rsp => by simpa only [rdregEffect, hreg, hr, id_eq] using h2 port rsp⟩

theorem streamFree_advance (b : CmdBody) : StreamFree (execAdvance b) := by
  refine streamFree_command (n := fun _ => 0) (effect := advanceEffect) (fun _ _ _ => rfl) ?_
  refine streamFree_ite (c := fun s => phaseAligned s = false) (fun _ _ _ => Iff.rfl) streamFree_refuse ?_
  refine streamFree_ite (c := fun s => 2 ^ 32 ≤ s.phase.toNat + s.numerator.toNat) (fun _ _ _ => Iff.rfl)
    (streamFree_fault _) ?_
  exact streamFree_respond (pay := fun _ => []) (g := fun s => { s with phase := s.phase + s.numerator })
    ⟨fun _ => rfl, fun _ _ _ => rfl⟩ (fun _ _ _ => rfl)

theorem streamFree_consume (b : CmdBody) : StreamFree (execConsume b) := by
  refine streamFree_command (n := fun _ => 0) (effect := consumeEffect) (fun _ _ _ => rfl) ?_
  refine streamFree_ite (c := fun s => phaseAligned s = true) (fun _ _ _ => Iff.rfl) streamFree_refuse ?_
  exact streamFree_respond (pay := fun _ => []) (g := fun s => { s with phase := s.phase - s.denominator })
    ⟨fun _ => rfl, fun _ _ _ => rfl⟩ (fun _ _ _ => rfl)

theorem streamFree_nop (b : CmdBody) : StreamFree (execNop b) :=
  streamFree_command (n := fun _ => 0) (effect := respond 0x0 .ok []) (fun _ _ _ => rfl)
    (streamFree_respond (pay := fun _ => []) (g := id) ⟨fun _ => rfl, fun _ _ _ => rfl⟩ (fun _ _ _ => rfl))

theorem streamFree_reset (b : CmdBody) : StreamFree (execReset b) :=
  streamFree_command (n := fun _ => 0) (effect := fun s => respond 0x7 .ok [] (destroyInstance s)) (fun _ _ _ => rfl)
    (streamFree_respond (pay := fun _ => []) (g := destroyInstance) ⟨fun _ => rfl, fun _ _ _ => rfl⟩ (fun _ _ _ => rfl))

/-- Every command adds its response words and otherwise does the same whatever the two streams hold. -/
theorem exec_streamFree (i : Instr) : StreamFree (exec i) := by
  cases i with
  | nop b => exact streamFree_nop b
  | config b => exact streamFree_config b
  | push b => exact streamFree_push b
  | read b => exact streamFree_read b
  | advance b => exact streamFree_advance b
  | consume b => exact streamFree_consume b
  | rdreg b => exact streamFree_rdreg b
  | reset b => exact streamFree_reset b
  | reserved opc b => exact streamFree_refuse

/-- No command writes the port. -/
theorem exec_port {i : Instr} {s t : State} (h : exec i s = .next t) : t.port = s.port := by
  obtain ⟨out, -, h2⟩ := exec_streamFree i s t h
  have h3 := (h2 s.port s.rsp).symm.trans h
  injection h3 with h3
  exact (congrArg State.port h3).symm

/-- No command reads the port: with other port events the next state is the same but for them. -/
theorem exec_withPort {i : Instr} {s t : State} (h : exec i s = .next t) (port : List PortEvent) :
    exec i { s with port := port } = .next { t with port := port } := by
  obtain ⟨out, h1, h2⟩ := exec_streamFree i s t h
  rw [h1]
  exact h2 port s.rsp

/-- Events given in two parts drive the machine through the state between them. -/
theorem runOn_append {es es' : List PortEvent} {s t : State} (h : runOn es s = .next t) :
    runOn (es ++ es') s = runOn es' t := by
  induction es generalizing s with
  | nil => cases h; rfl
  | cons e es ih =>
    simp only [runOn, List.cons_append] at h ⊢
    split at h
    · exact ih h
    · cases h
    · cases h

end Sys2Proof.Machine
end

