-- ==== Sys2Proof/Tests/Slice0.lean ====
section
/-! SUPPORT. The model's own tests (every expected value is from spec/95_test_vectors.md or from the encodings of
30_encoding), and for every statement with hypotheses a state and operands that meet them. -/

namespace Sys2Proof.Tests

open Sys2Proof Sys2Proof.Machine Sys2Proof.Claims

-- Well-formedness -------------------------------------------------------------------------------------------------

theorem push_wf (pay : List Word) : (Instr.push (plainBody pay)).wf = decide (pay.length < 65536) := rfl

/-- A payload of 65536 words does not fit `LEN` (30_encoding R71); one of 65535 does. -/
theorem test_payload_length_is_checked (w : Word) :
    (Instr.push (plainBody (List.replicate 65536 w))).wf = false ∧
      (Instr.push (plainBody (List.replicate 65535 w))).wf = true := by
  rw [push_wf, push_wf, List.length_replicate, List.length_replicate]
  exact ⟨rfl, rfl⟩

/-- Opcode 7 is RESET, no reserved opcode (30_encoding R76); 8 and 15 are reserved. -/
theorem test_reserved_opcode_is_checked :
    (Instr.reserved 7 (plainBody [])).wf = false ∧ (Instr.reserved 8 (plainBody [])).wf = true ∧
      (Instr.reserved 15 (plainBody [])).wf = true := by decide

-- Decoding: words written from 30_encoding R71, R76, R83 ------------------------------------------------------------

theorem test_decode_nop : (decode [0x00000000]).toOption = some (.nop (plainBody []), []) := by decide
theorem test_decode_config : (decode [0x10000005, 44100, 48000, 2, 32, 0x3F800000]).toOption =
    some (.config (plainBody [44100, 48000, 2, 32, 0x3F800000]), []) := by decide
theorem test_decode_push : (decode [0x20000002, 0x3F800000, 0x41000000, 0x40000000]).toOption =
    some (.push (plainBody [0x3F800000, 0x41000000]), [0x40000000]) := by decide
theorem test_decode_read : (decode [0x30000000]).toOption = some (.read (plainBody []), []) := by decide
theorem test_decode_advance : (decode [0x40000000]).toOption = some (.advance (plainBody []), []) := by decide
theorem test_decode_consume : (decode [0x50000000]).toOption = some (.consume (plainBody []), []) := by decide
theorem test_decode_rdreg : (decode [0x60090000]).toOption = some (.rdreg { rsv := 0, arg := 9, pay := [] }, []) := by decide
theorem test_decode_reset : (decode [0x70000000]).toOption = some (.reset (plainBody []), []) := by decide
theorem test_decode_reserved : (decode [0x90000001, 0x12345678]).toOption = some (.reserved 9 (plainBody [0x12345678]), []) := by decide

/-- Every header field takes its own bits: `RSV` 0xA, `ARG` 0x5C, `LEN` 1. -/
theorem test_decode_header_fields : (decode [0xFA5C0001, 7]).toOption = some (.reserved 15 { rsv := 0xA, arg := 0x5C, pay := [7] }, []) := by
  decide

/-- A command whose payload has not all arrived is not decoded (30_encoding R75). -/
theorem test_decode_waits_for_the_payload : (decode [0x10000005, 3, 4]).toOption = none := by decide

/-- An opcode-table word of 32 bits whose payload word is not given: that word is 0. -/
theorem test_decode_table_word : decodeTableWord 32 0x20000001 = some (.push (plainBody [0])) := by decide

/-- `FEED ss` is PUSH then CONSUME (30_encoding R84). -/
theorem test_feed_expands : ((Pseudo.feed [0x3F800000]).expand.map assemble) = [[0x20000001, 0x3F800000], [0x50000000]] := by
  decide

-- States for the tests ----------------------------------------------------------------------------------------------

/-- Table TA of vector T0. -/
def tableTA : List Word :=
  [0, 0x3F800000, 0, 0, 0xBE000000, 0x3F200000, 0x3F200000, 0xBE000000, 0, 0, 0x3F800000, 0]

/-- The parameters of vector T0 with table TA. -/
def testParams : Params where
  maxCoefficients := 12
  maxChannels := 2
  coefGen := fun _ _ _ _ _ _ a => tableTA.getD a 0
  nanDraw := fun _ _ => 0x7FC00000

/-- A configured block of 4 taps, rates 3:4 and `c` channels, with the given phase and the given words of `HIST`. -/
def liveState (p : Params) (c phase : Nat) (hist : List Word) : State :=
  { State.reset with
    cfgValid := true
    inRate := 3
    outRate := 4
    chCount := BitVec.ofNat 32 c
    tapCount := 4
    cutoff := 0x3F800000
    numRows := BitVec.ofNat 32 (p.maxCoefficients / 4)
    numerator := 3
    denominator := 4
    histLen := 4
    phase := BitVec.ofNat 32 phase
    coef := tabulate 0 (p.maxCoefficients / 4 * 4) (tableWord p 3 4 0x3F800000 (BitVec.ofNat 32 (p.maxCoefficients / 4)) 4)
    hist := tabulate 0 hist.length (fun a => hist.getD a 0) }

/-- A state after the fault. -/
def faulted (s : State) : State := { s with fault := true, faultCause := 1 }

/-- The window (1.0, 2.0, 3.0, 4.0). -/
def ramp : List Word := [0x3F800000, 0x40000000, 0x40400000, 0x40800000]

/-- A window of zeros of both signs. -/
def zeros : List Word := [0, 0x80000000, 0, 0x80000000]

/-- The next state of an outcome, through a function. -/
def after {α : Type} (r : Result) (f : State → α) : Option α :=
  match r with
  | .next s => some (f s)
  | _ => none

-- One step of each command ------------------------------------------------------------------------------------------

/-- T1 row 1. -/
theorem test_nop_answers : after (exec (.nop (plainBody [])) State.reset) State.rsp = some [0x00000000] := by decide

/-- Program P3, line NOP: the flags of a faulted block. -/
theorem test_nop_shows_the_flags :
    after (exec (.nop (plainBody [])) (faulted (liveState testParams 1 6 ramp))) State.rsp = some [0x00070000] := by
  decide

/-- T2 row 5: rates 6:8 are reduced; T2 row 4: three rows. -/
theorem test_config_reduces_the_rates :
    after (configWith testParams (plainBody [6, 8, 1, 4, 0x3F800000]) State.reset)
        (fun t => (t.rsp, [t.inRate, t.outRate, t.numRows, t.numerator, t.denominator, t.histLen])) =
      some ([0x10010000], [6, 8, 3, 3, 4, 4]) := by decide +kernel

/-- T2 row 9: four failed checks at once. -/
theorem test_config_answers_the_mask :
    after (configWith testParams (plainBody [0, 0xFFFFFFFF, 3, 0, 0x3F800000]) State.reset) (fun t => (t.rsp, t.cfgValid)) =
      some ([0x14000001, 0x0000001B], false) := by decide +kernel

/-- T12 row 9: the cursor wraps. -/
theorem test_push_wraps_the_cursor :
    after (pushWith testParams (plainBody [0x40800000, 0])
        { liveState testParams 2 2 [0x3F800000, 0x41000000, 0x40000000, 0x41800000, 0x40400000, 0, 0, 0] with cursor := 3 })
        (fun t => (t.rsp, t.cursor, t.hist.map Prod.snd)) =
      some ([0x20010000], 0, [0x3F800000, 0x41000000, 0x40000000, 0x41800000, 0x40400000, 0, 0x40800000, 0]) := by
  decide +kernel

/-- T1 row 15: one word for two channels. -/
theorem test_push_checks_its_length :
    after (pushWith testParams (plainBody [0x3F800000]) (liveState testParams 2 0 (ramp ++ ramp))) State.rsp =
      some [0x22010000] := by decide +kernel

/-- T7 row 2: products and sums are rounded separately, and the interpolation in the order of R148. -/
theorem test_read_rounds_every_operation :
    after (readWith testParams (plainBody []) (liveState testParams 1 3 [0x3F800001, 0x3F800003, 0x3F800001, 0x40400000]))
      State.rsp = some [0x30010001, 0x3F600003] := by decide +kernel

/-- T3, last sentence: READ at a phase that is not aligned. -/
theorem test_read_faults_when_unaligned :
    after (readWith testParams (plainBody []) (liveState testParams 1 4 ramp))
        (fun t => (t.rsp, t.fault, t.faultCause, t.phase)) = some ([0x37070000], true, 1, 4) := by decide +kernel

/-- T12 row 4. -/
theorem test_advance_adds_the_numerator :
    after (exec (.advance (plainBody [])) (liveState testParams 2 3 [])) (fun t => (t.rsp, t.phase)) =
      some ([0x40050000], 6) := by decide +kernel

/-- T12 row 5. -/
theorem test_advance_needs_an_aligned_phase :
    after (exec (.advance (plainBody [])) (liveState testParams 2 6 [])) (fun t => (t.rsp, t.phase)) =
      some ([0x45050000], 6) := by decide +kernel

/-- T12 row 6. -/
theorem test_consume_subtracts_the_denominator :
    after (exec (.consume (plainBody [])) (liveState testParams 2 6 [])) (fun t => (t.rsp, t.phase)) =
      some ([0x50010000], 2) := by decide +kernel

/-- T12 row 7. -/
theorem test_consume_needs_an_owed_frame :
    after (exec (.consume (plainBody [])) (liveState testParams 2 2 [])) (fun t => (t.rsp, t.phase)) =
      some ([0x55010000], 2) := by decide +kernel

/-- T1 row 12: `MAX_COEFFICIENTS`. -/
theorem test_rdreg_reads_a_register :
    after (rdregWith testParams { rsv := 0, arg := 0x0E, pay := [] } State.reset) State.rsp =
      some [0x60000001, 0x0000000C] := by decide +kernel

/-- T1 row 13: the first reserved index. -/
theorem test_rdreg_refuses_a_reserved_index :
    after (rdregWith testParams { rsv := 0, arg := 0x10, pay := [] } State.reset) State.rsp = some [0x68000000] := by
  decide +kernel

/-- T1 row 22. -/
theorem test_reset_leaves_the_fault :
    after (exec (.reset (plainBody [])) (faulted (liveState testParams 1 6 ramp))) id =
      some { State.reset with rsp := [0x70000000] } := by decide +kernel

/-- T1 row 6. -/
theorem test_reserved_opcode_answers_illegal :
    after (exec (.reserved 9 (plainBody [0x12345678])) State.reset) State.rsp = some [0x91000000] := by decide

/-- T1 row 20: illegal outranks faulted. -/
theorem test_illegal_outranks_faulted :
    after (exec (.reserved 9 (plainBody [])) (faulted (liveState testParams 1 6 ramp))) State.rsp = some [0x91070000] := by
  decide +kernel

/-- An opcode-table word runs in the next step after reset (T1 row 3). -/
theorem test_fetch_word_runs_next : after (step (State.reset.withFetchWord 32 0x30000000)) State.rsp = some [0x33000000] := by
  decide

/-- The payload words of a reserved command are skipped (T1 row 6). -/
theorem test_fetch_word_with_payload :
    after (step (State.reset.withFetchWord 32 0x90000001)) (fun t => (t.rsp, t.partialCmd, t.port)) =
      some ([0x91000000], [], []) := by decide

/-- A response word that waits holds back the next command, also behind the offer of it (70_reset_and_hazards R219): the
driver's acceptance is taken first, and with none the block waits. -/
theorem test_block_waits_for_acceptance :
    after (step { State.reset with rsp := [5], port := [.cmdWord 0, .rspTaken] }) (fun t => (t.rsp, t.port)) =
        some ([], [.cmdWord 0]) ∧
      after (step { State.reset with rsp := [5], port := [.cmdWord 0] }) id =
        some { State.reset with rsp := [5], port := [.cmdWord 0] } := by decide

-- Arithmetic --------------------------------------------------------------------------------------------------------

/-- T5: 16777217 is a tie and rounds to even. -/
theorem test_add_tie_to_even : f32Add 0x7FC00000 0x4B800000 0x3F800000 = 0x4B800000 := by decide +kernel

/-- T10: a subnormal product is exact, 0.625 * 2^-126 = 5 * 2^-129. -/
theorem test_mul_keeps_subnormals : f32Mul 0x7FC00000 0x00800000 0x3F200000 = 0x00500000 := by decide +kernel

/-- T9 row 3: the difference of about -3e38 and 3e38 overflows to an infinity. -/
theorem test_sub_overflows : f32Sub 0x7FC00000 0xFF61B1E6 0x7F61B1E6 = 0xFF800000 := by decide +kernel

/-- T9 row 1: an infinity times zero is a NaN. -/
theorem test_mul_infinity_by_zero : f32Mul 0x7FC00001 0x7F800000 0x00000000 = 0x7FC00001 := by decide +kernel

/-- T11 rows 7, 8 and 1. -/
theorem test_fraction_rounds :
    f32OfRat (2 ^ 31 - 2) (2 ^ 31 - 1) = 0x3F800000 ∧ f32OfRat 1 (2 ^ 31 - 1) = 0x30000000 ∧ f32OfRat 2 3 = 0x3F2AAAAB := by
  decide +kernel

-- Witnesses -------------------------------------------------------------------------------------------------------
-- For each statement with hypotheses: a state and operands that meet them, clause by clause.

/-- The states of these witnesses have the invariant, at every parameters the spec allows. -/
theorem liveState_inv {p : Params} (hp : p.ok) (c phase : Nat) (hist : List Word) (hc : 1 ≤ c ∧ c ≤ p.maxChannels)
    (hh : hist.length = 4 * c) (hph : phase < 7) : Inv p (liveState p c phase hist) := by
  obtain ⟨h1, h2, h3, h4⟩ := hp
  have hN : (BitVec.ofNat 32 (p.maxCoefficients / 4)).toNat = p.maxCoefficients / 4 := by
    rw [BitVec.toNat_ofNat]
    omega
  have hC : (BitVec.ofNat 32 c).toNat = c := by
    rw [BitVec.toNat_ofNat]
    omega
  have hP : (BitVec.ofNat 32 phase).toNat = phase := by
    rw [BitVec.toNat_ofNat]
    omega
  have hT : (4 : Word).toNat = 4 := rfl
  refine ⟨memoryWf_tabulate _ _ _, memoryWf_tabulate _ _ _, fun _ => ?_, fun h => by simp [liveState] at h, fun i rest h => ?_⟩
  · constructor
    case table =>
      intro a
      show memoryRead (tabulate 0 (p.maxCoefficients / 4 * 4) _) a =
        if a < (BitVec.ofNat 32 (p.maxCoefficients / 4)).toNat * 4 then
          some (tableWord p 3 4 0x3F800000 (BitVec.ofNat 32 (p.maxCoefficients / 4)) 4 a) else none
      rw [memoryRead_tabulate, hN]
      simp
    case ringWritten =>
      intro a
      show (memoryRead (tabulate 0 hist.length _) a).isSome = decide (a < 4 * (BitVec.ofNat 32 c).toNat)
      rw [memoryRead_tabulate, hC, hh]
      by_cases h : a < 4 * c <;> simp [h]
    all_goals simp only [liveState]
    case channels => rwa [hC]
    case taps =>
      rw [hT, Params.maxTaps]
      omega
    case rows =>
      rw [hN, hT]
      omega
    case tableFits =>
      rw [hN, hT]
      omega
    case phaseBound =>
      rw [hP]
      exact hph
    case faultRecorded => exact fun h => absurd h (by decide)
    case noFaultNoCause => exact fun _ => rfl
    all_goals decide
  · simp [liveState, State.reset] at h

/-- The same after the fault, at a phase that is not aligned. -/
theorem faulted_inv {p : Params} (hp : p.ok) (phase : Nat) (hph : 4 ≤ phase ∧ phase < 7) :
    Inv p (faulted (liveState p 1 phase ramp)) := by
  have h := liveState_inv hp 1 phase ramp ⟨by omega, hp.2.2.1⟩ rfl hph.2
  refine ⟨h.coefWf, h.histWf, fun _ => ?_, fun h => by simp [faulted, liveState] at h, h.decoderWaits⟩
  have I := h.configured rfl
  have hP : (BitVec.ofNat 32 phase).toNat = phase := by
    rw [BitVec.toNat_ofNat]
    omega
  refine ⟨I.channels, I.taps, I.rows, I.tableFits, I.ringLength, I.rates, I.coprime, I.reducedIn, I.reducedOut,
    I.cursorInRing, I.phaseBound, I.table, I.ringWritten, fun _ => ⟨rfl, ?_⟩, fun h => by simp [faulted] at h⟩
  show 4 ≤ (BitVec.ofNat 32 phase).toNat
  rw [hP]
  exact hph.1

theorem bounds : 8 ≤ P.maxCoefficients ∧ P.maxCoefficients < 2 ^ 32 ∧ 1 ≤ P.maxChannels ∧ P.maxChannels ≤ 65535 :=
  Config.params_ok

theorem reset_inv (p : Params) : Inv p State.reset :=
  ⟨rfl, rfl, fun h => absurd h (by decide), fun _ => rfl, fun _ _ h => by simp [State.reset] at h⟩

/-- A live block of the machine's own parameters, at each phase its rates reach. -/
theorem ramp_inv (phase : Nat) (h : phase < 7) : Inv P (liveState P 1 phase ramp) :=
  liveState_inv Config.params_ok 1 phase ramp ⟨by omega, bounds.2.2.1⟩ rfl h

theorem liveState_live (p : Params) (c phase : Nat) (hist : List Word) : Live (liveState p c phase hist) := ⟨rfl, rfl⟩

theorem aligned_3 (p : Params) (c : Nat) (hist : List Word) : Aligned (liveState p c 3 hist) := by
  show (3 : Nat) < 4
  decide

theorem not_aligned_4 (p : Params) (c : Nat) (hist : List Word) : ¬ Aligned (liveState p c 4 hist) := by
  show ¬ (4 : Nat) < 4
  decide

theorem not_aligned_6 (p : Params) (c : Nat) (hist : List Word) : ¬ Aligned (liveState p c 6 hist) := by
  show ¬ (6 : Nat) < 4
  decide

theorem testParams_ok : testParams.ok := by
  unfold Params.ok
  decide

/-- The boundary payload lengths are in `test_payload_length_is_checked`. -/
theorem witness_DecodeGivesBackEveryEncodedCommand :
    (Instr.rdreg { rsv := 15, arg := 255, pay := [1] }).wf = true ∧ (Instr.reserved 15 { rsv := 15, arg := 255, pay := [] }).wf = true := by
  decide

theorem witness_EncodeGivesBackEveryDecodedSequence :
    (decode [0x60FF0000, 5]).toOption = some (.rdreg { rsv := 0, arg := 255, pay := [] }, [5]) := by decide

theorem witness_StreamSplitsIntoItsCommands :
    (∀ i ∈ [Instr.nop (plainBody []), .push (plainBody [1])], i.wf = true) ∧
      (∀ i rest, decode [0x10000005, 1] ≠ .ok (i, rest)) ∧ [Instr.nop (plainBody []), .push (plainBody [1])].length ≤ 2 := by
  refine ⟨by decide, fun i rest h => ?_, by decide⟩
  have h' : (.error (.payloadMissing 4) : Except DecodeReject (Instr × List Word)) = .ok (i, rest) := h
  cases h'

theorem witness_HeaderFieldsStandWhereTheFormatPutsThem :
    ([] : List Word).length = (0xFFFF0000 : Word).toNat % 2 ^ 16 ∧ (List.replicate 65535 (7 : Word)).length = (0x0000FFFF : Word).toNat % 2 ^ 16 := by
  rw [List.length_replicate]
  decide

theorem witness_AssembledLinesDecodeToTheirCommands :
    ([] : List Word).length < 65536 ∧ (List.replicate 65535 (7 : Word)).length < 65536 := by
  rw [List.length_replicate]
  decide

/-- A word that completes a command behind two words of it, and one that does not. -/
theorem witness_CommandRunsWhenItsLastWordArrives :
    (let s : State := { State.reset with partialCmd := [0x20000002, 1], port := [.cmdWord 2] }
     s.rsp = [] ∧ s.port = .cmdWord 2 :: [] ∧ (decode (s.partialCmd ++ [2])).toOption = some (.push (plainBody [1, 2]), [])) ∧
    (let s : State := { State.reset with partialCmd := [0x20000002], port := [.cmdWord 1] }
     s.rsp = [] ∧ s.port = .cmdWord 1 :: [] ∧ decode (s.partialCmd ++ [1]) = .error (.payloadMissing 1)) := by
  exact ⟨by decide, rfl, rfl, rfl⟩

theorem witness_PresentedCommandRunsInTheNextStep : (Instr.push (plainBody [1, 2])).wf = true := by decide

/-- Without a port event, with no response word waiting, and with one waiting behind an offer. -/
theorem witness_StepTakesAtMostOnePortEvent :
    (∃ t, step State.reset = .next t) ∧
      (∃ t, step { State.reset with port := [.cmdWord 0x30000000, .rspTaken] } = .next t) ∧
      ∃ t, step { State.reset with rsp := [5], port := [.cmdWord 0x30000000, .rspTaken] } = .next t :=
  ⟨⟨_, rfl⟩, ⟨_, rfl⟩, ⟨_, rfl⟩⟩

/-- In the middle of a command with nothing offered, and behind an offer while a response word waits. -/
theorem witness_HardwareResetGivesTheResetState :
    ({ faulted (liveState P 1 6 ramp) with partialCmd := [0x20000001], port := [.rst] } : State).port = offers [] ++ .rst :: [] ∧
      ({ liveState P 1 6 ramp with rsp := [5], port := [.cmdWord 7, .rst] } : State).port = offers [7] ++ .rst :: [] ∧
      ({ liveState P 1 6 ramp with rsp := [5], port := [.cmdWord 7, .rst] } : State).rsp ≠ [] :=
  ⟨rfl, rfl, by simp⟩

/-- Both clauses, the first also behind an offer. -/
theorem witness_ResponseWordsLeaveInOrder :
    ({ State.reset with rsp := [1, 2], port := [.rspTaken] } : State).port = offers [] ++ .rspTaken :: [] ∧
      ({ State.reset with rsp := [1, 2], port := [.cmdWord 7, .rspTaken] } : State).port = offers [7] ++ .rspTaken :: [] ∧
      ({ State.reset with rsp := [1, 2], port := [.cmdWord 7, .rspTaken] } : State).rsp ≠ [] ∧ State.reset.port = [] :=
  ⟨rfl, rfl, by simp, rfl⟩

/-- With a command word offered, and with none. -/
theorem witness_BlockWaitsForResponseAcceptance :
    let s : State := { State.reset with rsp := [5], port := [.cmdWord 0] }
    let u : State := { State.reset with rsp := [5] }
    (s.rsp ≠ [] ∧ s.port = offers [0]) ∧ u.rsp ≠ [] ∧ u.port = offers [] := by
  exact ⟨⟨by simp, rfl⟩, by simp, rfl⟩

/-- Three steps: a command word runs a refused READ, the acceptance goes before the second command word, which then runs a
NOP; one event is left. -/
theorem witness_CommandSequenceIsAParameterOfTheRun :
    runTaking 3 { State.reset with port := [.cmdWord 0x30000000, .cmdWord 0, .rspTaken, .rst] } =
      some ({ State.reset with port := [.rst], rsp := [0] }, [0x33000000]) := by decide

/-- A READ that is refused and a NOP, two response words. -/
theorem witness_PresentedCommandsAreExecutedAndAnswered :
    Inv P State.reset ∧ State.reset.partialCmd = [] ∧ State.reset.rsp = [] ∧
      (∀ i ∈ [Instr.read (plainBody []), .nop (plainBody [])], i.wf = true) ∧
      ∃ t, execAll [.read (plainBody []), .nop (plainBody [])] State.reset = .next t ∧ t.rsp.length ≤ 2 :=
  ⟨reset_inv P, rfl, rfl, by decide, _, rfl, by decide⟩

/-- Each kind of header that spells no command, one with a payload. -/
theorem witness_UnspelledHeadersAnswerIllegal :
    ((Instr.reserved 8 (plainBody [1])).spellsCommand = false ∧ (Instr.reserved 8 (plainBody [1])).wf = true) ∧
    (Instr.reserved 8 (plainBody [])).spellsCommand = false ∧ (Instr.reserved 15 (plainBody [])).spellsCommand = false ∧
    (Instr.read { rsv := 1, arg := 0, pay := [] }).spellsCommand = false ∧
    (Instr.nop { rsv := 0, arg := 1, pay := [] }).spellsCommand = false ∧
    (Instr.rdreg { rsv := 8, arg := 255, pay := [] }).spellsCommand = false := by decide

/-- The three clauses: faulted; PUSH before and CONFIG after a CONFIG; a wrong length, CONFIG of 4 words and PUSH of 2. -/
theorem witness_WorkCommandsAreCheckedInOrder :
    ((Instr.read (plainBody [])).spellsCommand = true ∧ isWork (.read (plainBody [])) = true ∧
      (faulted (liveState P 1 6 ramp)).fault = true) ∧
    ((Instr.push (plainBody [])).spellsCommand = true ∧ isWork (.push (plainBody [])) = true ∧
      State.reset.fault = false ∧ State.reset.cfgValid ≠ neededValid (.push (plainBody []))) ∧
    ((Instr.config (plainBody [])).spellsCommand = true ∧ isWork (.config (plainBody [])) = true ∧
      (liveState P 1 0 ramp).fault = false ∧ (liveState P 1 0 ramp).cfgValid ≠ neededValid (.config (plainBody []))) ∧
    (State.reset.fault = false ∧ State.reset.cfgValid = neededValid (.config (plainBody [3, 4, 1, 4])) ∧
      (plainBody [3, 4, 1, 4]).pay.length ≠ expectedLen (.config (plainBody [3, 4, 1, 4])) State.reset) ∧
    ((liveState P 1 0 ramp).fault = false ∧ (liveState P 1 0 ramp).cfgValid = neededValid (.push (plainBody [1, 2])) ∧
      (plainBody [1, 2]).pay.length ≠ expectedLen (.push (plainBody [1, 2])) (liveState P 1 0 ramp)) := by
  refine ⟨⟨rfl, rfl, rfl⟩, ⟨rfl, rfl, rfl, by decide⟩, ⟨rfl, rfl, rfl, ?_⟩, ⟨rfl, rfl, by decide⟩, ⟨rfl, rfl, ?_⟩⟩
  · show true ≠ false
    decide
  · show 2 ≠ 1
    decide

/-- READ before CONFIG answers `ERR_STATE` (T1 row 3); a READ that is not aligned answers `FAULT_INVARIANT` (T8). -/
theorem witness_ErrorsArePrecise :
    (∃ t, exec (.read (plainBody [])) State.reset = .next t ∧ t.rsp = State.reset.rsp ++ 0x33000000 :: [] ∧
      (0x33000000 : Word).toNat / 2 ^ 24 % 16 ≠ 0) ∧
    ∃ t, exec (.read (plainBody [])) (liveState P 1 4 ramp) = .next t ∧
      t.rsp = (liveState P 1 4 ramp).rsp ++ 0x37070000 :: [] ∧ (0x37070000 : Word).toNat / 2 ^ 24 % 16 = 7 := by
  refine ⟨⟨_, rfl, by decide, by decide⟩, withRsp [0x37070000] (faulted (liveState P 1 4 ramp)), ?_, rfl, by decide⟩
  · obtain ⟨h1, h2, -, -⟩ := bounds
    have hN : (liveState P 1 4 ramp).numRows.toNat = P.maxCoefficients / 4 := by
      show (BitVec.ofNat 32 (P.maxCoefficients / 4)).toNat = _
      rw [BitVec.toNat_ofNat]
      omega
    have hs : selectorDefined (liveState P 1 4 ramp) = true := by
      unfold selectorDefined
      rw [hN, decide_eq_true (by omega)]
      rfl
    have hi : (liveState P 1 4 ramp).numRows.toNat ≤ indexHigh (liveState P 1 4 ramp) := by
      unfold indexHigh indexLow tablePhaseNum
      rw [hN]
      show P.maxCoefficients / 4 ≤ 4 * (P.maxCoefficients / 4 - 1) / 4 + 1
      omega
    show readEffect P (liveState P 1 4 ramp) = _
    unfold readEffect
    rw [hs, if_neg (by decide), if_pos hi]
    rfl

theorem witness_EveryCommandAnswersExactlyOnce : Inv P State.reset ∧ Inv P (liveState P 1 6 ramp) :=
  ⟨reset_inv P, ramp_inv 6 (by decide)⟩

/-- An input rate of 0, and a channel count above `MAX_CHANNELS` by one. -/
theorem witness_FailedConfigBuildsNothing :
    State.reset.cfgValid = false ∧ State.reset.fault = false ∧ configMask 0 4 1 4 ≠ 0 ∧
      configMask 3 4 (BitVec.ofNat 32 (P.maxChannels + 1)) 4 ≠ 0 := by
  refine ⟨rfl, rfl, ?_, ?_⟩
  · unfold configMask
    rw [if_pos (by decide : (0 : Word).toInt ≤ 0)]
    omega
  · have := bounds.2.2.2
    have h : (BitVec.ofNat 32 (P.maxChannels + 1)).toInt = P.maxChannels + 1 := by
      rw [BitVec.toInt_eq_toNat_cond, BitVec.toNat_ofNat]
      omega
    unfold configMask
    rw [h, if_pos (by omega : (P.maxChannels : Int) < P.maxChannels + 1)]
    omega

theorem witness_ConfigBuildsTheInstance :
    State.reset.cfgValid = false ∧ State.reset.fault = false ∧ configMask 3 4 1 4 = 0 := by
  have h1 := bounds.1
  have h2 := bounds.2.2.1
  refine ⟨rfl, rfl, ?_⟩
  unfold configMask
  have e1 : (1 : Word).toInt = 1 := rfl
  have e4 : (4 : Word).toInt = 4 := rfl
  rw [e1, e4, if_neg (by decide), if_neg (by decide), if_neg (by decide), if_neg (by omega), if_neg (by decide),
    if_neg (by decide), if_neg (by omega)]

theorem witness_PushWritesOneFrame :
    Inv P (liveState P 1 6 ramp) ∧ Live (liveState P 1 6 ramp) ∧
      [(0x40A00000 : Word)].length = (liveState P 1 6 ramp).chCount.toNat :=
  ⟨ramp_inv 6 (by decide), liveState_live _ _ _ _, rfl⟩

/-- The hypotheses of `witness_PushWritesOneFrame`, and a next state. -/
theorem witness_PushShiftsTheWindowByOneFrame :
    ∃ t, exec (.push (plainBody [0x40A00000])) (liveState P 1 6 ramp) = .next t := by
  have hcap : 0 + 1 ≤ capacity P .hist := by
    have h1 := bounds.1
    have h2 : 0 < P.maxTaps := by
      unfold Params.maxTaps
      omega
    exact Nat.mul_pos h2 bounds.2.2.1
  have hw : memWriteWords P .hist (histAddress (liveState P 1 6 ramp) (liveState P 1 6 ramp).cursor.toNat 0) [0x40A00000]
      (liveState P 1 6 ramp) = .ok _ := memWriteWords_of_fits (.inr hcap)
  show ∃ t, pushEffect P (plainBody [0x40A00000]) (liveState P 1 6 ramp) = .next t
  unfold pushEffect
  rw [if_neg (by show ¬ (4 : Nat) = 0; decide)]
  simp only [plainBody, hw]
  exact ⟨_, rfl⟩

/-- Both clauses: ADVANCE on the largest aligned phase, CONSUME on the smallest that is not. -/
theorem witness_PushCommutesWithThePhaseCommands :
    (Inv P (liveState P 1 3 ramp) ∧ Live (liveState P 1 3 ramp) ∧ Aligned (liveState P 1 3 ramp) ∧
      [(0 : Word)].length = (liveState P 1 3 ramp).chCount.toNat) ∧
    (Inv P (liveState P 1 4 ramp) ∧ Live (liveState P 1 4 ramp) ∧ ¬ Aligned (liveState P 1 4 ramp) ∧
      [(0 : Word)].length = (liveState P 1 4 ramp).chCount.toNat) :=
  ⟨⟨ramp_inv 3 (by decide), liveState_live _ _ _ _, aligned_3 _ _ _, rfl⟩,
    ramp_inv 4 (by decide), liveState_live _ _ _ _, not_aligned_4 _ _ _, rfl⟩

/-- At the largest aligned phase. -/
theorem witness_ReadAnswersTheInterpolatedFrame :
    Inv P (liveState P 1 3 ramp) ∧ Live (liveState P 1 3 ramp) ∧ Aligned (liveState P 1 3 ramp) :=
  ⟨ramp_inv 3 (by decide), liveState_live _ _ _ _, aligned_3 _ _ _⟩

theorem witness_UnalignedReadEntersTheFault :
    Inv P (liveState P 1 4 ramp) ∧ Live (liveState P 1 4 ramp) ∧ ¬ Aligned (liveState P 1 4 ramp) :=
  ⟨ramp_inv 4 (by decide), liveState_live _ _ _ _, not_aligned_4 _ _ _⟩

/-- Channel 1 holds zeros of both signs, channel 0 the ramp, table TA. -/
theorem witness_SilentChannelReadsPositiveZero :
    let s := liveState testParams 2 3 [0x3F800000, 0, 0x40000000, 0x80000000, 0x40400000, 0x80000000, 0x40800000, 0]
    testParams.ok ∧ Inv testParams s ∧ Live s ∧ Aligned s ∧ GenFinite testParams s ∧ 1 < s.chCount.toNat ∧
      ∀ j, j < s.tapCount.toNat → f32IsZero (sampleAt s 1 j) = true := by
  refine ⟨testParams_ok, liveState_inv testParams_ok _ _ _ (by decide) rfl (by decide), liveState_live _ _ _ _,
    aligned_3 _ _ _, ?_, by decide +kernel, by decide +kernel⟩
  unfold GenFinite
  decide +kernel

/-- The two histories differ in channel 1, and channel 0 is read. -/
theorem witness_ChannelOutputDependsOnItsOwnChannelOnly :
    let s := liveState testParams 2 3 [0x3F800000, 0, 0x40000000, 0, 0x40400000, 0, 0x40800000, 0]
    let u := liveState testParams 2 3 [0x3F800000, 9, 0x40000000, 9, 0x40400000, 9, 0x40800000, 9]
    testParams.ok ∧ Inv testParams s ∧ u = { s with hist := u.hist } ∧ Inv testParams u ∧ Live s ∧ Aligned s ∧
      0 < s.chCount.toNat ∧ s.hist ≠ u.hist ∧
      ∀ f, f < s.histLen.toNat →
        memoryRead u.hist (f * s.chCount.toNat + 0) = memoryRead s.hist (f * s.chCount.toNat + 0) := by
  exact ⟨testParams_ok, liveState_inv testParams_ok _ _ _ (by decide) rfl (by decide), rfl,
    liveState_inv testParams_ok _ _ _ (by decide) rfl (by decide), liveState_live _ _ _ _, aligned_3 _ _ _,
    by decide +kernel, by decide +kernel, by decide +kernel⟩

/-- T3 row 2: at phase 2 of table TA the fraction is 0 and the difference finite; T9 row 1: with an infinity in the window
at phase 0 the difference is a NaN. -/
theorem witness_IntegerTablePhaseExcludesTheHighRow :
    let s := liveState testParams 1 2 ramp
    let u := liveState testParams 1 0 [0x7F800000, 0x40000000, 0x40400000, 0x40800000]
    let d := fun v => f32Sub (channelNan testParams v 0) (accumulator testParams v (lowRow v + 1) 0)
      (accumulator testParams v (lowRow v) 0)
    testParams.ok ∧
    (Inv testParams s ∧ Live s ∧ Aligned s ∧ 0 < s.chCount.toNat ∧
      s.phase.toNat * (s.numRows.toNat - 1) % s.denominator.toNat = 0 ∧ f32IsFinite (d s) = true) ∧
    Inv testParams u ∧ Live u ∧ Aligned u ∧ 0 < u.chCount.toNat ∧
      u.phase.toNat * (u.numRows.toNat - 1) % u.denominator.toNat = 0 ∧ f32IsFinite (d u) = false := by
  refine ⟨testParams_ok, ⟨liveState_inv testParams_ok _ _ _ (by decide) rfl (by decide), liveState_live _ _ _ _, ?_,
    by decide +kernel, by decide +kernel, by decide +kernel⟩,
    liveState_inv testParams_ok _ _ _ (by decide) rfl (by decide), liveState_live _ _ _ _, ?_,
    by decide +kernel, by decide +kernel, by decide +kernel⟩
  · show (2 : Nat) < 4
    decide
  · show (0 : Nat) < 4
    decide

/-- Every branch of the rule has a state with the invariant: unconfigured, faulted, aligned at the largest phase, and not
aligned at the smallest. -/
theorem witness_AdvanceFollowsItsRule :
    Inv P State.reset ∧ Inv P (faulted (liveState P 1 4 ramp)) ∧ Inv P (liveState P 1 3 ramp) ∧ Inv P (liveState P 1 4 ramp) :=
  ⟨reset_inv P, faulted_inv Config.params_ok 4 (by decide), ramp_inv 3 (by decide), ramp_inv 4 (by decide)⟩

/-- Aligned at the largest phase, and not aligned at the smallest, with the fewest rows. -/
theorem witness_GuardIndexLeavesTheTableExactlyWhenUnaligned :
    let s : State := { State.reset with numRows := 2, denominator := 4, phase := 3 }
    let u : State := { State.reset with numRows := 2, denominator := 4, phase := 4 }
    (2 ≤ s.numRows.toNat ∧ 0 < s.denominator.toNat ∧ indexHigh s < s.numRows.toNat) ∧
      2 ≤ u.numRows.toNat ∧ 0 < u.denominator.toNat ∧ u.numRows.toNat ≤ indexHigh u := by decide

theorem witness_FractionIsZeroExactlyOnARow :
    Inv P (liveState P 1 0 ramp) ∧ (liveState P 1 0 ramp).cfgValid = true ∧ phaseRem (liveState P 1 0 ramp) = 0 ∧
      Inv testParams (liveState testParams 1 1 ramp) ∧ phaseRem (liveState testParams 1 1 ramp) = 2 := by
  refine ⟨ramp_inv 0 (by decide), rfl, ?_, liveState_inv testParams_ok _ _ _ (by decide) rfl (by decide), by decide +kernel⟩
  show 0 * _ % 4 = 0
  omega

theorem witness_PhaseAfterRoundsIsTheResidue :
    Inv P (liveState P 1 0 ramp) ∧ Live (liveState P 1 0 ramp) ∧ Aligned (liveState P 1 0 ramp) := by
  refine ⟨ramp_inv 0 (by decide), liveState_live _ _ _ _, ?_⟩
  show (0 : Nat) < 4
  decide

/-- All four clauses. -/
theorem witness_ProtocolCommandsAnswerOk :
    (Inv P (liveState P 1 3 ramp) ∧ Live (liveState P 1 3 ramp) ∧ Aligned (liveState P 1 3 ramp) ∧
      [(0 : Word)].length = (liveState P 1 3 ramp).chCount.toNat) ∧
    Inv P (liveState P 1 6 ramp) ∧ Live (liveState P 1 6 ramp) ∧ ¬ Aligned (liveState P 1 6 ramp) :=
  ⟨⟨ramp_inv 3 (by decide), liveState_live _ _ _ _, aligned_3 _ _ _, rfl⟩,
    ramp_inv 6 (by decide), liveState_live _ _ _ _, not_aligned_6 _ _ _⟩

/-- T5: a tie between 16777216.0 and 16777218.0. -/
theorem witness_SumIsNearestTiesToEven :
    f32IsFinite 0x4B800000 = true ∧ f32IsFinite 0x3F800000 = true ∧ f32IsFinite 0x4B800001 = true ∧
      f32IsFinite (f32Add 0x7FC00000 0x4B800000 0x3F800000) = true ∧
      (f32Units 0x4B800000 + f32Units 0x3F800000 - f32Units 0x4B800001).natAbs
        = (f32Units 0x4B800000 + f32Units 0x3F800000 - f32Units (f32Add 0x7FC00000 0x4B800000 0x3F800000)).natAbs := by
  decide +kernel

/-- T7: 0.625 * (1 + 3 * 2^-23). -/
theorem witness_ProductIsNearestTiesToEven :
    f32IsFinite 0x3F800003 = true ∧ f32IsFinite 0x3F200000 = true ∧ f32IsFinite 0x3F200001 = true ∧
      f32IsFinite (f32Mul 0x7FC00000 0x3F800003 0x3F200000) = true := by decide +kernel

/-- From 0 / 1 over the largest fraction of the block's largest denominator to a fraction far below the subnormals. -/
theorem witness_FractionConversionIsNearestTiesToEven :
    0 < 1 ∧ (2 ^ 31 - 2 < 2 ^ 31 - 1 ∧ 2 ^ 31 - 2 ≠ 0 ∧ 2 ^ 31 - 1 < 2 ^ 31) ∧ 1 < 2 ^ 200 ∧ f32IsFinite 0x3F800000 = true := by
  decide

/-- Each clause: 2 + 1 = 3, 2 - 1 = 1, 2 * 3 = 6. -/
theorem witness_ExactResultsAreAnsweredExactly :
    f32IsFinite 0x40000000 = true ∧ f32IsFinite 0x3F800000 = true ∧ f32IsFinite 0x40400000 = true ∧
    f32IsFinite 0x40C00000 = true ∧ f32Units 0x40400000 ≠ 0 ∧ f32Units 0x3F800000 ≠ 0 ∧ f32Units 0x40C00000 ≠ 0 ∧
    f32Units 0x40000000 + f32Units 0x3F800000 = f32Units 0x40400000 ∧
    f32Units 0x40000000 - f32Units 0x3F800000 = f32Units 0x3F800000 ∧
    f32Units 0x40000000 * f32Units 0x40400000 = f32Units 0x40C00000 * 2 ^ 149 := by decide +kernel

/-- Each clause at its boundary: the largest finite number plus half a spacing, exactly at the threshold, plus less than
that; and products on both sides of it. -/
theorem witness_OverflowIsExactlyAtTheThreshold :
    f32IsFinite 0x7F7FFFFF = true ∧ f32IsFinite 0x73000000 = true ∧ f32IsFinite 0x72FFFFFF = true ∧
    overflowUnits = (f32Units 0x7F7FFFFF + f32Units 0x73000000).natAbs ∧
    (f32Units 0x7F7FFFFF + f32Units 0x72FFFFFF).natAbs < overflowUnits ∧
    (f32Units 0x7F7FFFFF * f32Units 0x3F800000).natAbs < overflowUnits * 2 ^ 149 ∧
    overflowUnits * 2 ^ 149 ≤ (f32Units 0x7F7FFFFF * f32Units 0x3F800001).natAbs := by decide +kernel

/-- Zeros of both signs; the largest finite number. -/
theorem witness_ZeroOperandsGiveZeros :
    f32IsZero 0x00000000 = true ∧ f32IsZero 0x80000000 = true ∧ f32IsFinite 0x7F7FFFFF = true := by decide

theorem witness_AddingZeroGivesBackTheOperand :
    f32IsFinite 0x00000001 = true ∧ (0x00000001 : Word) ≠ 0x80000000 ∧ f32IsZero 0x80000000 = true ∧
      f32IsFinite 0x00000000 = true ∧ (0x00000000 : Word) ≠ 0x80000000 := by decide

theorem witness_SumIsNotNegativeZero : f32IsNan 0x7FC00000 = true ∧ (0x80000001 : Word) ≠ 0x80000000 := by decide

/-- An exact cancellation, and a product that underflows to a zero. -/
theorem witness_ZeroResultsHaveTheirSigns :
    (f32IsFinite 0x3F800000 = true ∧ f32IsFinite 0xBF800000 = true ∧ f32Units 0x3F800000 + f32Units 0xBF800000 = 0 ∧
      ¬ ((0x3F800000 : Word) = 0x80000000 ∧ (0xBF800000 : Word) = 0x80000000)) ∧
    f32IsFinite 0x80000001 = true ∧ f32IsFinite 0x00000001 = true ∧ f32IsZero (f32Mul 0x7FC00000 0x80000001 0x00000001) = true := by
  decide +kernel

theorem witness_InvalidOperationsGiveANan :
    f32IsNan 0x7F800001 = true ∧ f32IsZero 0x80000000 = true ∧ f32IsInf 0xFF800000 = true ∧ f32IsInf 0x7F800000 = true := by
  decide

/-- Each clause: a finite operand of the other sign and a zero, an infinity of the other sign, and the smallest subnormal. -/
theorem witness_InfinityOperandsGiveInfinities :
    f32IsInf 0x7F800000 = true ∧ f32IsInf 0xFF800000 = true ∧ f32IsFinite 0xFF7FFFFF = true ∧ f32IsFinite 0x80000000 = true ∧
      (0x7F800000 : Word) ≠ 0xFF800000 ∧ f32IsNan 0x80000001 = false ∧ f32IsZero 0x80000001 = false := by decide

/-- The step that completes a CONSUME. -/
theorem witness_EveryStepKeepsTheInvariant :
    let s : State := { liveState P 1 6 ramp with port := [.cmdWord 0x50000000] }
    Inv P s ∧ ∃ t, step s = .next t ∧ t.phase = 2 := by
  have h := ramp_inv 6 (by decide)
  have I := h.configured rfl
  refine ⟨⟨h.coefWf, h.histWf, fun _ => ?_, fun hf => absurd hf (by simp [liveState]), h.decoderWaits⟩, _, rfl, rfl⟩
  exact ⟨I.channels, I.taps, I.rows, I.tableFits, I.ringLength, I.rates, I.coprime, I.reducedIn, I.reducedOut,
    I.cursorInRing, I.phaseBound, I.table, I.ringWritten, I.faultRecorded, I.noFaultNoCause⟩

theorem witness_NoStepStops : Inv P (faulted (liveState P 1 6 ramp)) := faulted_inv Config.params_ok 6 (by decide)

theorem witness_EveryStepKeepsMemoriesCanonical :
    memoryWf [(0, 1), (7, 2)] = true ∧ memoryWf State.reset.hist = true ∧ ∃ t, step State.reset = .next t :=
  ⟨by decide, rfl, _, rfl⟩

/-- A CONFIG that builds an instance answers a next state. -/
theorem config_next : ∃ t, exec (.config (plainBody [3, 4, 1, 4, 0x3F800000])) State.reset = .next t := by
  obtain ⟨h1, h2, h3, -⟩ := bounds
  have he : configErrors P [3, 4, 1, 4, 0x3F800000] = 0 := by
    have e6 : decide (((P.maxCoefficients / 2 : Nat) : Int) < payInt [3, 4, 1, 4, 0x3F800000] 3) = false :=
      decide_eq_false (by show ¬ ((P.maxCoefficients / 2 : Nat) : Int) < 4; omega)
    have e3 : decide ((P.maxChannels : Int) < payInt [3, 4, 1, 4, 0x3F800000] 2) = false :=
      decide_eq_false (by show ¬ (P.maxChannels : Int) < 1; omega)
    unfold configErrors
    rw [e3, e6]
    decide
  have hN : (BitVec.ofNat 32 (P.maxCoefficients / 4)).toNat * 4 ≤ P.maxCoefficients := by
    rw [BitVec.toNat_ofNat]
    omega
  show ∃ t, configEffect P (plainBody [3, 4, 1, 4, 0x3F800000]) State.reset = .next t
  unfold configEffect
  rw [if_neg (by simpa [plainBody] using he)]
  unfold buildInstance
  rw [memWriteWords_of_fits (.inr (by
    rw [coefTable, List.length_map, List.length_range, Nat.zero_add]
    exact hN))]
  dsimp only
  rw [memWriteWords_of_fits (.inr (by
    rw [silence, List.length_replicate, Nat.zero_add]
    show 4 * 1 ≤ Params.maxTaps P * P.maxChannels
    have : 4 ≤ Params.maxTaps P := by
      unfold Params.maxTaps
      omega
    exact Nat.mul_le_mul this h3))]
  exact ⟨_, rfl⟩

/-- Every arm: the work commands with their effect, READ with the fault (its frame is `witness_ReadAnswersTheInterpolatedFrame`),
the rest in any state. PUSH is `witness_PushShiftsTheWindowByOneFrame`, CONFIG is `config_next`. -/
theorem witness_StateIsWrittenOnlyByItsCommands :
    (∃ t, exec (.nop (plainBody [])) State.reset = .next t) ∧
    (∃ t, exec (.rdreg (plainBody [])) State.reset = .next t) ∧
    (∃ t, exec (.reserved 9 (plainBody [])) State.reset = .next t) ∧
    (∃ t, exec (.config (plainBody [3, 4, 1, 4, 0x3F800000])) State.reset = .next t) ∧
    (∃ t, exec (.push (plainBody [0x40A00000])) (liveState P 1 6 ramp) = .next t) ∧
    (∃ t, exec (.read (plainBody [])) (liveState P 1 4 ramp) = .next t) ∧
    (∃ t, exec (.advance (plainBody [])) (liveState P 1 3 ramp) = .next t) ∧
    (∃ t, exec (.consume (plainBody [])) (liveState P 1 6 ramp) = .next t) ∧
    (∃ t, exec (.reset (plainBody [])) (faulted (liveState P 1 6 ramp)) = .next t) := by
  obtain ⟨-, t, ht, -⟩ := witness_ErrorsArePrecise
  exact ⟨⟨_, rfl⟩, ⟨_, rfl⟩, ⟨_, rfl⟩, config_next, witness_PushShiftsTheWindowByOneFrame, ⟨t, ht⟩, ⟨_, rfl⟩, ⟨_, rfl⟩, ⟨_, rfl⟩⟩

theorem witness_FaultFreezesTheStateUntilReset : (faulted (liveState P 1 6 ramp)).fault = true := rfl

end Sys2Proof.Tests
end

section
/-! PROOFS of the family 10_state: the reset state, the invariant of every step, and the command sequence as a parameter. -/

namespace Sys2Proof.Machine

-- The invariant does not speak of the streams and of the model's counter -------------------------------------------

/-- The state with another decoder's buffer, other streams and another counter of free values: no element of which
`InstanceInv` speaks. -/
def State.withBuffers (pc : List Word) (port : List PortEvent) (rsp : List Word) (n : Nat) (s : State) : State :=
  { s with partialCmd := pc, port := port, rsp := rsp, nanReads := n }

section
variable {p : Params} {s t : State}

theorem InstanceInv.withBuffers (I : InstanceInv p s) (pc : List Word) (port : List PortEvent) (rsp : List Word) (n : Nat) :
    InstanceInv p (s.withBuffers pc port rsp n) := { I with }

theorem NoInstance.withBuffers (h : NoInstance s) (pc : List Word) (port : List PortEvent) (rsp : List Word) (n : Nat) :
    NoInstance (s.withBuffers pc port rsp n) := by
  have hb := congrArg (State.withBuffers pc port rsp n) h
  exact hb

theorem Inv.withBuffers (h : Inv p s) {pc : List Word} (hd : ∀ i rest, decode pc ≠ .ok (i, rest))
    (port : List PortEvent) (rsp : List Word) (n : Nat) : Inv p (s.withBuffers pc port rsp n) :=
  ⟨h.coefWf, h.histWf, fun hc => (h.configured hc).withBuffers pc port rsp n,
    fun hc => (h.unconfigured hc).withBuffers pc port rsp n, hd⟩

theorem Inv.answer (h : Inv p s) (ws : List Word) : Inv p (s.answer ws) :=
  h.withBuffers h.decoderWaits s.port (s.rsp ++ ws) s.nanReads

/-- The reset values that a block without a configuration keeps (10_state R42, R43), as far as CONFIG relies on them. -/
theorem NoInstance.values (h : NoInstance s) :
    s.cfgValid = false ∧ s.fault = false ∧ s.faultCause = 0 ∧ s.coef = [] ∧ s.hist = [] := by
  have hb := congrArg State.toBlock h
  exact ⟨congrArg Block.cfgValid hb, congrArg Block.fault hb, congrArg Block.faultCause hb, congrArg Block.coef hb,
    congrArg Block.hist hb⟩

/-- On a block that is not configured only the decoder's buffer is left to look at. -/
theorem NoInstance.inv (h : NoInstance s) (hd : ∀ i rest, decode s.partialCmd ≠ .ok (i, rest)) : Inv p s := by
  obtain ⟨hv, -, -, hcoef, hhist⟩ := h.values
  refine ⟨?_, ?_, fun hc => absurd (hv.symm.trans hc) (by decide), fun _ => h, hd⟩
  · rw [hcoef]
    rfl
  · rw [hhist]
    rfl

theorem Inv.destroyInstance (s : State) : Inv p (destroyInstance s) :=
  NoInstance.inv rfl (fun _ _ h => by cases h)

theorem Inv.hardwareReset (s : State) : Inv p (hardwareReset s) :=
  NoInstance.inv rfl (fun _ _ h => by cases h)

/-- An update of a configured block that leaves it sound and keeps the decoder's buffer keeps the invariant. -/
theorem Inv.update (h : Inv p s) (hcoef : memoryWf t.coef = true) (hhist : memoryWf t.hist = true) (hv : t.cfgValid = true)
    (I : InstanceInv p t) (hd : t.partialCmd = s.partialCmd) : Inv p t :=
  ⟨hcoef, hhist, fun _ => I, fun hc => absurd (hv.symm.trans hc) (by decide), hd ▸ h.decoderWaits⟩

/-- The reduced output rate is not 0, since it divides one that is not (10_state R29). -/
theorem InstanceInv.denominator_pos (I : InstanceInv p s) : 0 < s.denominator.toNat := by
  have hout := I.reducedOut
  obtain ⟨-, -, hpos, -⟩ := I.rates
  rcases Nat.eq_zero_or_pos s.denominator.toNat with h0 | h0
  · rw [h0, Nat.zero_mul] at hout
    omega
  · exact h0

/-- A response ends a command and keeps the invariant of the state it is given. -/
theorem Inv.of_respond (h : Inv p s) {opc : BitVec 4} {st : Status} {pay : List Word}
    (ht : respond opc st pay s = .next t) : Inv p t := by
  cases ht
  exact h.answer _

/-- A command keeps the invariant when its effect does past the common checks. -/
theorem Inv.of_command (h : Inv p s) {opc : BitVec 4} {req : Requires} {ua : Bool} {n : Nat} {b : CmdBody} {eff : Result}
    (heff : protocolError req ua n b s = none → eff = .next t → Inv p t)
    (ht : command opc req ua n b s eff = .next t) : Inv p t := by
  rcases command_cases opc req ua n b s eff with ⟨e, -, hc⟩ | ⟨hok, hc⟩
  · cases hc.symm.trans ht
    exact h.answer _
  · exact heff hok (hc.symm.trans ht)

/-- The common checks of PUSH, READ, ADVANCE and CONSUME pass only on a live block (30_encoding R77). -/
theorem live_of_checks {ua : Bool} {n : Nat} {b : CmdBody} (h : protocolError .liveInstance ua n b s = none) :
    Live s ∧ b.pay.length = n := by
  obtain ⟨-, -, hf, hv, hl⟩ := protocolError_eq_none_iff.mp h
  exact ⟨⟨by simpa [refusedByState] using hv, by simpa [refusedAsFaulted] using hf⟩, hl⟩

end

-- The commands that change the phase ------------------------------------------------------------------------------

section
variable {p : Params} {s t : State}

/-- On a live block a phase below `DEN + NUM` is all that a new phase must satisfy (42_phase R135). -/
theorem Inv.withPhase (h : Inv p s) (hl : Live s) {ph : Word}
    (hph : ph.toNat < s.denominator.toNat + s.numerator.toNat) : Inv p { s with phase := ph } := by
  obtain ⟨hv, hf⟩ := hl
  have I := h.configured hv
  refine h.update h.coefWf h.histWf hv ?_ rfl
  exact { I with phaseBound := hph, faultRecorded := fun hf' => absurd (hf.symm.trans hf') (by decide) }

theorem advanceEffect_keeps_inv (h : Inv p s) (hl : Live s) (ht : advanceEffect s = .next t) : Inv p t := by
  unfold advanceEffect at ht
  split at ht
  · exact h.of_respond ht
  next hal =>
  have hal : s.phase.toNat < s.denominator.toNat := by simpa [phaseAligned] using hal
  split at ht
  · cases ht
  next hsum =>
  refine (h.withPhase hl ?_).of_respond ht
  rw [BitVec.toNat_add_of_lt (by omega)]
  omega

theorem consumeEffect_keeps_inv (h : Inv p s) (hl : Live s) (ht : consumeEffect s = .next t) : Inv p t := by
  unfold consumeEffect at ht
  split at ht
  · exact h.of_respond ht
  next hal =>
  have hle : s.denominator.toNat ≤ s.phase.toNat := by simpa [phaseAligned] using hal
  have hph := (h.configured hl.1).phaseBound
  refine (h.withPhase hl ?_).of_respond ht
  rw [BitVec.toNat_sub_of_le (BitVec.le_def.mpr hle)]
  omega

end

-- PUSH ------------------------------------------------------------------------------------------------------------

section
variable {p : Params} {s t : State}

theorem nextCursor_toNat (h : 0 < s.histLen.toNat) :
    (nextCursor s).toNat = (s.cursor.toNat + 1) % s.histLen.toNat := by
  have hlt := Nat.mod_lt (s.cursor.toNat + 1) h
  have hL := s.histLen.isLt
  rw [nextCursor, BitVec.toNat_ofNat, Nat.mod_eq_of_lt (by omega)]

/-- The frame at a cursor inside the ring lies in the ring (20_memory R52). -/
theorem histAddress_frame_le (h : s.cursor.toNat < s.histLen.toNat) :
    histAddress s s.cursor.toNat 0 + s.chCount.toNat ≤ s.histLen.toNat * s.chCount.toNat := by
  calc histAddress s s.cursor.toNat 0 + s.chCount.toNat
      = (s.cursor.toNat + 1) * s.chCount.toNat := by rw [histAddress, Nat.add_zero, Nat.succ_mul]
    _ ≤ s.histLen.toNat * s.chCount.toNat := Nat.mul_le_mul_right _ h

theorem pushEffect_keeps_inv {b : CmdBody} (h : Inv p s) (hl : Live s) (hlen : b.pay.length = s.chCount.toNat)
    (ht : pushEffect p b s = .next t) : Inv p t := by
  obtain ⟨hv, -⟩ := hl
  have I := h.configured hv
  have hc := I.cursorInRing
  unfold pushEffect at ht
  split at ht
  · cases ht
  obtain ⟨u, hu, ht⟩ := orStop_eq_next_iff.mp ht
  rw [memWriteWords_eq_ok hu] at ht
  have hp : Inv p { s with hist := writeAll (histAddress s s.cursor.toNat 0) b.pay s.hist, cursor := nextCursor s } := by
    refine h.update h.coefWf (memoryWf_writeAll _ _ h.histWf) hv ?_ rfl
    refine { I with cursorInRing := ?_, ringWritten := fun a => ?_ }
    · show (nextCursor s).toNat < s.histLen.toNat
      rw [nextCursor_toNat (by omega)]
      exact Nat.mod_lt _ (by omega)
    · show (memoryRead (writeAll (histAddress s s.cursor.toNat 0) b.pay s.hist) a).isSome
        = decide (a < s.histLen.toNat * s.chCount.toNat)
      have hframe := histAddress_frame_le hc
      rw [memoryRead_writeAll]
      split
      next hin =>
        rw [List.getElem?_eq_getElem (by omega), decide_eq_true (by omega)]
        rfl
      next => exact I.ringWritten a
  exact hp.of_respond ht

end

-- READ ------------------------------------------------------------------------------------------------------------

section
variable {p : Params} {s t : State}

/-- READ's comparison fails exactly on a block that is not aligned: with `D = DEN` and `N - 1` intervals,
`N - 1 ≤ PHASE * (N - 1) div D` says `D ≤ PHASE` (42_phase R141). -/
theorem numRows_le_indexHigh_iff (hN : 2 ≤ s.numRows.toNat) (hD : 0 < s.denominator.toNat) :
    s.numRows.toNat ≤ indexHigh s ↔ s.denominator.toNat ≤ s.phase.toNat := by
  calc s.numRows.toNat ≤ indexHigh s
      ↔ s.numRows.toNat - 1 ≤ tablePhaseNum s / s.denominator.toNat := by
        rw [indexHigh, indexLow]
        omega
    _ ↔ s.denominator.toNat * (s.numRows.toNat - 1) ≤ s.phase.toNat * (s.numRows.toNat - 1) := by
        rw [Nat.le_div_iff_mul_le hD, tablePhaseNum, Nat.mul_comm]
    _ ↔ s.denominator.toNat ≤ s.phase.toNat := Nat.mul_le_mul_right_iff (by omega)

/-- The fault may be recorded on a configured block that is not aligned (60_exceptions R193). -/
theorem Inv.withFault (h : Inv p s) (hv : s.cfgValid = true) (hph : s.denominator.toNat ≤ s.phase.toNat) :
    Inv p { s with fault := true, faultCause := 1 } := by
  have I := h.configured hv
  refine h.update h.coefWf h.histWf hv ?_ rfl
  exact { I with faultRecorded := fun _ => ⟨rfl, hph⟩, noFaultNoCause := fun hf => by cases hf }

theorem readEffect_keeps_inv (h : Inv p s) (hv : s.cfgValid = true) (ht : readEffect p s = .next t) : Inv p t := by
  have I := h.configured hv
  unfold readEffect at ht
  split at ht
  · cases ht
  split at ht
  next hrow =>
    exact (h.withFault hv ((numRows_le_indexHigh_iff I.rows.2 I.denominator_pos).mp hrow)).of_respond ht
  split at ht
  · cases ht
  obtain ⟨out, -, ht⟩ := orStop_eq_next_iff.mp ht
  exact (h.withBuffers h.decoderWaits s.port s.rsp (s.nanReads + 1)).of_respond ht

end

-- CONFIG ----------------------------------------------------------------------------------------------------------

/-- The operands that CONFIG accepts (40_construct R104), as natural numbers. -/
structure LegalOperands (p : Params) (pay : List Word) : Prop where
  inRate : 1 ≤ (payWord pay 0).toNat ∧ (payWord pay 0).toNat < 2 ^ 31
  outRate : 1 ≤ (payWord pay 1).toNat ∧ (payWord pay 1).toNat < 2 ^ 31
  channels : 1 ≤ (payWord pay 2).toNat ∧ (payWord pay 2).toNat < 2 ^ 31 ∧ (payWord pay 2).toNat ≤ p.maxChannels
  taps : 1 ≤ (payWord pay 3).toNat ∧ (payWord pay 3).toNat < 2 ^ 31 ∧ (payWord pay 3).toNat % 4 = 0 ∧
    (payWord pay 3).toNat ≤ p.maxCoefficients / 2

theorem maskBit_eq_zero_iff (failed : Bool) (bit : Nat) (h : bit < 32) : maskBit failed bit = 0#32 ↔ failed = false := by
  cases failed with
  | false => simp [maskBit]
  | true =>
    have hset : ∀ k, k < 32 → 1#32 <<< k ≠ 0#32 := by decide
    simpa only [maskBit, if_true, Bool.true_eq_false, iff_false] using hset bit h

/-- A positive `i32` is the number its 31 low bits spell (30_encoding R80). -/
theorem payInt_pos_iff (pay : List Word) (k : Nat) :
    0 < payInt pay k ↔ 1 ≤ (payWord pay k).toNat ∧ (payWord pay k).toNat < 2 ^ 31 := by
  have := (payWord pay k).isLt
  rw [payInt, BitVec.toInt_eq_toNat_cond]
  split <;> omega

theorem payInt_eq_toNat {pay : List Word} {k : Nat} (h : (payWord pay k).toNat < 2 ^ 31) :
    payInt pay k = (payWord pay k).toNat := BitVec.toInt_eq_toNat_of_lt (by omega)

/-- The two low bits of a word are its remainder by 4. -/
theorem lowBits_eq_zero_iff (w : Word) : w.extractLsb' 0 2 = 0#2 ↔ w.toNat % 4 = 0 := by
  rw [← BitVec.toNat_inj]
  simp [BitVec.extractLsb'_toNat]

/-- The mask is empty exactly on the operands that CONFIG accepts (40_construct R104). -/
theorem configErrors_eq_zero_iff (p : Params) (pay : List Word) : configErrors p pay = 0#32 ↔ LegalOperands p pay := by
  have hbit (failed : Bool) (bit : Nat) (h : bit < 7) := maskBit_eq_zero_iff failed bit (by omega)
  have hch := payInt_pos_iff pay 2
  have htaps := payInt_pos_iff pay 3
  simp only [configErrors, BitVec.or_eq_zero_iff, hbit, Nat.reduceLT, decide_eq_false_iff_not, Int.not_le,
    Int.not_lt, ne_eq, Classical.not_not, BitVec.ofNat_eq_ofNat, lowBits_eq_zero_iff]
  constructor
  · rintro ⟨⟨⟨⟨⟨⟨h0, h1⟩, h2⟩, h3⟩, h4⟩, h5⟩, h6⟩
    rw [payInt_eq_toNat (hch.mp h2).2] at h3
    rw [payInt_eq_toNat (htaps.mp h4).2] at h6
    exact ⟨(payInt_pos_iff pay 0).mp h0, (payInt_pos_iff pay 1).mp h1, by omega, by omega⟩
  · rintro ⟨h0, h1, h2, h4⟩
    rw [payInt_eq_toNat (by omega : (payWord pay 2).toNat < 2 ^ 31), payInt_eq_toNat (by omega : (payWord pay 3).toNat < 2 ^ 31),
      payInt_pos_iff, payInt_pos_iff]
    omega

section
variable {p : Params} {pay : List Word} {s t : State}

theorem configRegisters_numRows_toNat (hp : p.ok) :
    (configRegisters p pay s).numRows.toNat = p.maxCoefficients / (payWord pay 3).toNat := by
  obtain ⟨-, hlt, -⟩ := hp
  have := Nat.div_le_self p.maxCoefficients (payWord pay 3).toNat
  exact Nat.mod_eq_of_lt (by omega)

theorem configRegisters_numerator_toNat : (configRegisters p pay s).numerator.toNat =
    (payWord pay 0).toNat / Nat.gcd (payWord pay 0).toNat (payWord pay 1).toNat :=
  Nat.mod_eq_of_lt (Nat.lt_of_le_of_lt (Nat.div_le_self _ _) (payWord pay 0).isLt)

theorem configRegisters_denominator_toNat : (configRegisters p pay s).denominator.toNat =
    (payWord pay 1).toNat / Nat.gcd (payWord pay 0).toNat (payWord pay 1).toNat :=
  Nat.mod_eq_of_lt (Nat.lt_of_le_of_lt (Nat.div_le_self _ _) (payWord pay 1).isLt)

/-- Everything a CONFIG that builds can do: the registers, then the table in `COEF`, then silence in `HIST`. -/
theorem buildInstance_eq_ok (h : buildInstance p pay s = .ok t) :
    t = { configRegisters p pay s with
      coef := writeAll 0 (coefTable p (configRegisters p pay s)) s.coef
      hist := writeAll 0 (silence (configRegisters p pay s)) s.hist } := by
  unfold buildInstance at h
  split at h
  · cases h
  next u hu =>
  rw [memWriteWords_eq_ok h, memWriteWords_eq_ok hu]
  rfl

theorem length_coefTable : (coefTable p s).length = s.numRows.toNat * s.tapCount.toNat := by
  rw [coefTable, List.length_map, List.length_range]

/-- The table written over an empty memory reads as the generator's words, and nothing beyond it is written. -/
theorem memoryRead_coefTable (a : Nat) : memoryRead (writeAll 0 (coefTable p s) []) a =
    if a < s.numRows.toNat * s.tapCount.toNat then
      some (tableWord p s.inRate s.outRate s.cutoff s.numRows s.tapCount a) else none := by
  rw [memoryRead_writeAll, length_coefTable, Nat.zero_add]
  by_cases h : a < s.numRows.toNat * s.tapCount.toNat
  · rw [if_pos ⟨Nat.zero_le a, h⟩, if_pos h]
    simp [coefTable, h]
  · rw [if_neg (fun hin => h hin.2), if_neg h]
    rfl

/-- The cleared history over an empty memory has exactly the ring's words written. -/
theorem memoryRead_silence_isSome (a : Nat) :
    (memoryRead (writeAll 0 (silence s) []) a).isSome = decide (a < s.tapCount.toNat * s.chCount.toNat) := by
  rw [memoryRead_writeAll, silence, List.length_replicate, Nat.zero_add]
  by_cases h : a < s.tapCount.toNat * s.chCount.toNat
  · rw [if_pos ⟨Nat.zero_le a, h⟩]
    simp [h]
  · rw [if_neg (fun hin => h hin.2)]
    simp [h]

/-- CONFIG's registers with the two memories it writes are sound, on a block that was not configured (40_construct R104 to
R106, 10_state R43). -/
theorem instanceInv_of_config (hp : p.ok) (hop : LegalOperands p pay) (hfault : s.fault = false) (hcause : s.faultCause = 0) :
    InstanceInv p { configRegisters p pay s with
      coef := writeAll 0 (coefTable p (configRegisters p pay s)) []
      hist := writeAll 0 (silence (configRegisters p pay s)) [] } := by
  obtain ⟨⟨hin, hin'⟩, ⟨hout, hout'⟩, ⟨hch, -, hch'⟩, ⟨htap, -, hmod, hhalf⟩⟩ := hop
  have hg : 0 < Nat.gcd (payWord pay 0).toNat (payWord pay 1).toNat := Nat.gcd_pos_of_pos_left _ hin
  have hN := configRegisters_numRows_toNat (pay := pay) (s := s) hp
  have hnum := configRegisters_numerator_toNat (p := p) (pay := pay) (s := s)
  have hden := configRegisters_denominator_toNat (p := p) (pay := pay) (s := s)
  constructor
  case channels => exact ⟨hch, hch'⟩
  case taps =>
    show (payWord pay 3).toNat % 4 = 0 ∧ 4 ≤ (payWord pay 3).toNat ∧ (payWord pay 3).toNat ≤ p.maxTaps
    have := Params.le_maxTaps hmod hhalf
    omega
  case rows =>
    refine ⟨hN, hN.symm ▸ ?_⟩
    rw [Nat.le_div_iff_mul_le htap]
    omega
  case tableFits =>
    refine hN.symm ▸ ?_
    exact Nat.div_mul_le_self _ _
  case ringLength => rfl
  case rates => exact ⟨hin, hin', hout, hout'⟩
  case coprime =>
    rw [hnum, hden]
    exact Nat.coprime_div_gcd_div_gcd hg
  case reducedIn =>
    rw [hnum]
    exact Nat.div_mul_cancel (Nat.gcd_dvd_left _ _)
  case reducedOut =>
    rw [hden]
    exact Nat.div_mul_cancel (Nat.gcd_dvd_right _ _)
  case cursorInRing => exact htap
  case phaseBound =>
    have hpos := Nat.div_pos (Nat.gcd_le_right (payWord pay 0).toNat hout) hg
    show 0 < (configRegisters p pay s).denominator.toNat + _
    omega
  case table => exact memoryRead_coefTable
  case ringWritten => exact memoryRead_silence_isSome
  case faultRecorded => exact fun h => absurd (hfault.symm.trans h) (by decide)
  case noFaultNoCause => exact fun _ => hcause

theorem configEffect_keeps_inv (hp : p.ok) {b : CmdBody} (h : Inv p s) (hv : s.cfgValid = false)
    (ht : configEffect p b s = .next t) : Inv p t := by
  unfold configEffect at ht
  split at ht
  · exact h.of_respond ht
  next hmask =>
  obtain ⟨u, hu, ht⟩ := orStop_eq_next_iff.mp ht
  have hop := (configErrors_eq_zero_iff p b.pay).mp (Classical.not_not.mp hmask)
  obtain ⟨-, hfault, hcause, hcoef, hhist⟩ := (h.unconfigured hv).values
  have I := instanceInv_of_config hp hop hfault hcause
  have hu := buildInstance_eq_ok hu
  rw [hcoef, hhist] at hu
  subst hu
  exact (h.update (memoryWf_writeAll 0 _ rfl) (memoryWf_writeAll 0 _ rfl) rfl I rfl).of_respond ht

end

-- Every command and every step ------------------------------------------------------------------------------------

section
variable {s t : State}

/-- Every command keeps the invariant of the machine at its own parameters. -/
theorem exec_keeps_inv {i : Instr} (h : Inv Config.params s) (ht : exec i s = .next t) : Inv Config.params t := by
  cases i with
  | nop b => exact h.of_command (fun _ ht => h.of_respond ht) ht
  | config b =>
    refine h.of_command (fun hok ht => configEffect_keeps_inv Config.params_ok h ?_ ht) ht
    obtain ⟨-, -, -, hv, -⟩ := protocolError_eq_none_iff.mp hok
    exact hv
  | push b =>
    refine h.of_command (fun hok ht => ?_) ht
    obtain ⟨hl, hlen⟩ := live_of_checks hok
    exact pushEffect_keeps_inv h hl hlen ht
  | read b => exact h.of_command (fun hok ht => readEffect_keeps_inv h (live_of_checks hok).1.1 ht) ht
  | advance b => exact h.of_command (fun hok ht => advanceEffect_keeps_inv h (live_of_checks hok).1 ht) ht
  | consume b => exact h.of_command (fun hok ht => consumeEffect_keeps_inv h (live_of_checks hok).1 ht) ht
  | rdreg b =>
    refine h.of_command (fun _ ht => ?_) ht
    unfold rdregEffect at ht
    split at ht
    · exact h.of_respond ht
    · exact h.of_respond ht
  | reset b => exact h.of_command (fun _ ht => (Inv.destroyInstance s).of_respond ht) ht
  | reserved opc b => exact h.of_respond ht

/-- A word that completes a command of a buffer without a complete command is the command's last: nothing stands behind it
(30_encoding R70, 10_state R41). -/
theorem rest_eq_nil_of_decode_append {ws rest : List Word} {w : Word} {i : Instr}
    (hw : ∀ i rest, decode ws ≠ .ok (i, rest)) (hd : decode (ws ++ [w]) = .ok (i, rest)) : rest = [] := by
  have len_le : ∀ h tl, ws ++ [w] = h :: tl → tl.length ≤ headerLen h := by
    intro h tl heq
    cases ws with
    | nil =>
      cases heq
      exact Nat.zero_le _
    | cons h' tl' =>
      cases heq
      rcases decode_cons h tl' with ⟨hlt, -⟩ | ⟨-, hok⟩
      · show (tl' ++ [w]).length ≤ headerLen h
        rw [List.length_append, List.length_singleton]
        exact hlt
      · exact absurd hok (hw _ _)
  cases hws : ws ++ [w] with
  | nil => simp at hws
  | cons h tl =>
    rw [hws] at hd
    rcases decode_cons h tl with ⟨-, herr⟩ | ⟨-, hok⟩
    · cases herr.symm.trans hd
    · cases hok.symm.trans hd
      exact List.drop_eq_nil_of_le (len_le h tl hws)

/-- Every step keeps the invariant of the machine at its own parameters. -/
theorem step_keeps_inv (h : Inv Config.params s) (ht : step s = .next t) : Inv Config.params t := by
  rcases step_cases s with ⟨-, hs⟩ | ⟨es, -, hs⟩ | ⟨es, -, hs⟩ | ⟨w, es, r, -, -, hd, hs⟩ | ⟨w, es, i, rest, -, -, hd, hs⟩
  · cases hs.symm.trans ht
    exact h
  · cases hs.symm.trans ht
    exact h.withBuffers h.decoderWaits es _ s.nanReads
  · cases hs.symm.trans ht
    exact Inv.hardwareReset _
  · cases hs.symm.trans ht
    refine h.withBuffers (fun i rest hok => ?_) es s.rsp s.nanReads
    cases hd.symm.trans hok
  · cases rest_eq_nil_of_decode_append h.decoderWaits hd
    exact exec_keeps_inv (h.withBuffers (fun _ _ hok => by cases hok) es s.rsp s.nanReads) (hs.symm.trans ht)

end

end Sys2Proof.Machine

namespace Sys2Proof.Claims

open Sys2Proof Sys2Proof.Machine

-- The port events that steps take ---------------------------------------------------------------------------------

@[simp] theorem wordsOf_append (es es' : List PortEvent) : wordsOf (es ++ es') = wordsOf es ++ wordsOf es' :=
  List.filterMap_append

@[simp] theorem actionsOf_append (es es' : List PortEvent) : actionsOf (es ++ es') = actionsOf es ++ actionsOf es' :=
  List.filter_append _ _

@[simp] theorem wordsOf_offers (ws : List Word) : wordsOf (ws.map .cmdWord) = ws := by
  induction ws with
  | nil => rfl
  | cons w ws ih => exact congrArg (w :: ·) ih

@[simp] theorem actionsOf_offers (ws : List Word) : actionsOf (ws.map .cmdWord) = [] := by
  induction ws with
  | nil => rfl
  | cons w ws ih => exact ih

theorem wordsOf_action {e : PortEvent} (h : e.isAction = true) : wordsOf [e] = [] := by
  cases e with
  | cmdWord w => cases h
  | rspTaken => rfl
  | rst => rfl

section
variable {s t u : State} {e : PortEvent} {es : List PortEvent}

/-- The event taken stands before the events left among those of its own kind (20_memory R54). -/
theorem port_of_nextEvent (h : nextEvent s = some (e, es)) :
    wordsOf s.port = wordsOf [e] ++ wordsOf es ∧ actionsOf s.port = actionsOf [e] ++ actionsOf es := by
  rcases nextEvent_cases s with ⟨hn, -⟩ | ⟨w, es', -, hp, hn⟩ | ⟨ws, e', es', hp, he, -, hn⟩
  · cases hn.symm.trans h
  · cases hn.symm.trans h
    rw [hp]
    exact ⟨wordsOf_append [_] _, actionsOf_append [_] _⟩
  · cases hn.symm.trans h
    rw [hp, List.append_cons]
    simp only [wordsOf_append, actionsOf_append, wordsOf_offers, actionsOf_offers, wordsOf_action he, List.nil_append,
      List.append_nil, and_self]

/-- A step with an event to take is the machine given that event. -/
theorem step_eq_stepOn (h : nextEvent s = some (e, es)) : step s = stepOn e { s with port := es } := by
  have hf : fetch s = takeEvent e { s with port := es } := by simp only [fetch, h]
  cases ht : takeEvent e { s with port := es } with
  | waits u => simp only [step, stepOn, hf, ht]
  | runs i u => simp only [step, stepOn, hf, ht]

theorem stepOn_of_partial {w : Word} {r : DecodeReject} (hd : decode (s.partialCmd ++ [w]) = .error r) :
    stepOn (.cmdWord w) s = .next { s with partialCmd := s.partialCmd ++ [w] } := by
  simp [stepOn, takeEvent, acceptWord, hd]

theorem stepOn_of_command {w : Word} {i : Instr} {rest : List Word} (hd : decode (s.partialCmd ++ [w]) = .ok (i, rest)) :
    stepOn (.cmdWord w) s = exec i { s with partialCmd := rest } := by
  simp [stepOn, takeEvent, acceptWord, hd]

/-- With other events still to come the machine does the same with an event that is given to it. -/
theorem stepOn_withPort (h : stepOn e s = .next t) (port : List PortEvent) :
    stepOn e { s with port := port } = .next { t with port := port } := by
  cases e with
  | rspTaken => cases h; rfl
  | rst => cases h; rfl
  | cmdWord w =>
    cases hd : decode (s.partialCmd ++ [w]) with
    | error r =>
      cases (stepOn_of_partial hd).symm.trans h
      exact stepOn_of_partial (s := { s with port := port }) hd
    | ok ir =>
      have hex := exec_withPort ((stepOn_of_command hd).symm.trans h) port
      exact (stepOn_of_command (s := { s with port := port }) hd).trans hex

/-- An event that is given to the machine leaves the events still to come where they are. -/
theorem stepOn_port (h : stepOn e s = .next t) : t.port = s.port := by
  have hs : stepOn e s = .next { t with port := s.port } := stepOn_withPort h s.port
  have ht : t = { t with port := s.port } := Host.Outcome.next.inj (h.symm.trans hs)
  rw [ht]

/-- One step is the machine given the event that it takes, or no event. -/
theorem step_eq_runOn (h : step s = .next t) :
    ∃ es, runOn es { s with port := [] } = .next { t with port := [] } ∧
      wordsOf s.port = wordsOf es ++ wordsOf t.port ∧ actionsOf s.port = actionsOf es ++ actionsOf t.port := by
  cases hn : nextEvent s with
  | none =>
    cases (step_of_no_event hn).symm.trans h
    exact ⟨[], rfl, rfl, rfl⟩
  | some ees =>
    obtain ⟨e, es⟩ := ees
    have hon := (step_eq_stepOn hn).symm.trans h
    have hport : t.port = es := stepOn_port hon
    have hrun : stepOn e { s with port := [] } = .next { t with port := [] } := stepOn_withPort hon []
    refine ⟨[e], ?_, hport ▸ port_of_nextEvent hn⟩
    simp only [runOn, hrun]

theorem runTaking_succ {k : Nat} {out : List Word} (h : runTaking (k + 1) s = some (u, out)) :
    ∃ t out', step s = .next t ∧ runTaking k t = some (u, out') := by
  unfold runTaking at h
  split at h
  next t ht =>
    obtain ⟨⟨u', out'⟩, hr, heq⟩ := Option.map_eq_some_iff.mp h
    cases heq
    exact ⟨t, out', ht, hr⟩
  next => cases h

end

end Sys2Proof.Claims

namespace Sys2Proof.Proofs

open Sys2Proof Sys2Proof.Machine Sys2Proof.Claims

/-- Settles O47: `exec_keeps_inv` for the commands, and no other thing that a step does touches the block but the hardware
reset and the decoder's buffer. -/
theorem everyStepKeepsTheInvariant : Obligations.EveryStepKeepsTheInvariant :=
  fun _ _ h ht => step_keeps_inv h ht

/-- Settles O55, by induction on the number of steps: the events of the first step, then those of the others. -/
theorem commandSequenceIsAParameterOfTheRun : Obligations.CommandSequenceIsAParameterOfTheRun := by
  intro k
  induction k with
  | zero =>
    intro s u out h
    cases h
    exact ⟨[], rfl, rfl, rfl⟩
  | succ k ih =>
    intro s u out h
    obtain ⟨t, out', hst, hr⟩ := runTaking_succ h
    obtain ⟨es, hes, hw, ha⟩ := step_eq_runOn hst
    obtain ⟨es', hes', hw', ha'⟩ := ih t u out' hr
    refine ⟨es ++ es', (runOn_append hes).trans hes', ?_, ?_⟩
    · rw [hw, hw', wordsOf_append, List.append_assoc]
    · rw [ha, ha', actionsOf_append, List.append_assoc]

/-- Settles O45: the reset state has no block configured, and an empty decoder. -/
theorem resetStateMeetsTheInvariant : Obligations.ResetStateMeetsTheInvariant :=
  NoInstance.inv rfl (fun _ _ h => by cases h)

/-- Settles O46, register by register. -/
theorem resetValuesAreTheSpecs : Obligations.ResetValuesAreTheSpecs := by
  have hzero : ∀ index, index < 0x0E → registerValue index State.reset = some 0 := by decide
  exact ⟨rfl, rfl, rfl, hzero, rfl, rfl, rfl⟩

end Sys2Proof.Proofs
end

section
/-! PROOFS of the family 20_memory: the canonical form of the memories, and the events a step takes from the port. -/

namespace Sys2Proof.Machine

-- The canonical form of both memories -----------------------------------------------------------------------------

/-- Both memories are canonical (entry 10). -/
structure MemoriesCanonical (s : State) : Prop where
  coef : memoryWf s.coef = true
  hist : memoryWf s.hist = true

section
variable {p : Params} {s t : State}

/-- A response ends a command and touches no memory. -/
theorem MemoriesCanonical.of_respond {opc : BitVec 4} {st : Status} {pay : List Word}
    (ht : respond opc st pay s = .next t) (h : MemoriesCanonical s) : MemoriesCanonical t := by
  cases ht
  exact ⟨h.coef, h.hist⟩

/-- A command keeps the memories canonical when its effect past the common checks does. -/
theorem MemoriesCanonical.of_command (h : MemoriesCanonical s) {opc : BitVec 4} {req : Requires} {ua : Bool} {n : Nat}
    {b : CmdBody} {eff : Result} (heff : eff = .next t → MemoriesCanonical t)
    (ht : command opc req ua n b s eff = .next t) : MemoriesCanonical t := by
  rcases command_cases opc req ua n b s eff with ⟨e, -, hc⟩ | ⟨-, hc⟩
  · cases hc.symm.trans ht
    exact ⟨h.coef, h.hist⟩
  · exact heff (hc.symm.trans ht)

theorem configEffect_keeps_canonical {b : CmdBody} (h : MemoriesCanonical s) (ht : configEffect p b s = .next t) :
    MemoriesCanonical t := by
  unfold configEffect at ht
  split at ht
  · exact h.of_respond ht
  · obtain ⟨u, hu, ht⟩ := orStop_eq_next_iff.mp ht
    have hcu : MemoriesCanonical u := by
      rw [buildInstance_eq_ok hu]
      exact ⟨memoryWf_writeAll 0 _ h.coef, memoryWf_writeAll 0 _ h.hist⟩
    exact hcu.of_respond ht

theorem pushEffect_keeps_canonical {b : CmdBody} (h : MemoriesCanonical s) (ht : pushEffect p b s = .next t) :
    MemoriesCanonical t := by
  unfold pushEffect at ht
  split at ht
  · cases ht
  · obtain ⟨u, hu, ht⟩ := orStop_eq_next_iff.mp ht
    have hcu : MemoriesCanonical { u with cursor := nextCursor s } := by
      rw [memWriteWords_eq_ok hu]
      exact ⟨h.coef, memoryWf_writeAll _ _ h.hist⟩
    exact hcu.of_respond ht

theorem readEffect_keeps_canonical (h : MemoriesCanonical s) (ht : readEffect p s = .next t) : MemoriesCanonical t := by
  unfold readEffect at ht
  split at ht
  · cases ht
  split at ht
  · exact MemoriesCanonical.of_respond ht ⟨h.coef, h.hist⟩
  split at ht
  · cases ht
  · obtain ⟨out, -, ht⟩ := orStop_eq_next_iff.mp ht
    exact MemoriesCanonical.of_respond ht ⟨h.coef, h.hist⟩

theorem advanceEffect_keeps_canonical (h : MemoriesCanonical s) (ht : advanceEffect s = .next t) :
    MemoriesCanonical t := by
  unfold advanceEffect at ht
  split at ht
  · exact h.of_respond ht
  split at ht
  · cases ht
  · exact MemoriesCanonical.of_respond ht ⟨h.coef, h.hist⟩

theorem consumeEffect_keeps_canonical (h : MemoriesCanonical s) (ht : consumeEffect s = .next t) :
    MemoriesCanonical t := by
  unfold consumeEffect at ht
  split at ht
  · exact h.of_respond ht
  · exact MemoriesCanonical.of_respond ht ⟨h.coef, h.hist⟩

theorem rdregEffect_keeps_canonical {b : CmdBody} (h : MemoriesCanonical s) (ht : rdregEffect p b s = .next t) :
    MemoriesCanonical t := by
  unfold rdregEffect at ht
  split at ht
  · exact h.of_respond ht
  · exact h.of_respond ht

/-- Every command keeps the memories canonical: CONFIG and PUSH write word by word, RESET empties both. -/
theorem exec_keeps_canonical {i : Instr} (h : MemoriesCanonical s) (ht : exec i s = .next t) : MemoriesCanonical t := by
  cases i with
  | nop b => exact h.of_command h.of_respond ht
  | config b => exact h.of_command (configEffect_keeps_canonical h) ht
  | push b => exact h.of_command (pushEffect_keeps_canonical h) ht
  | read b => exact h.of_command (readEffect_keeps_canonical h) ht
  | advance b => exact h.of_command (advanceEffect_keeps_canonical h) ht
  | consume b => exact h.of_command (consumeEffect_keeps_canonical h) ht
  | rdreg b => exact h.of_command (rdregEffect_keeps_canonical h) ht
  | reset b =>
    have hempty : MemoriesCanonical (destroyInstance s) := ⟨rfl, rfl⟩
    exact h.of_command hempty.of_respond ht
  | reserved opc b => exact h.of_respond ht

/-- Every step keeps the memories canonical. -/
theorem step_keeps_canonical (h : MemoriesCanonical s) (ht : step s = .next t) : MemoriesCanonical t := by
  rcases step_cases s with ⟨-, hs⟩ | ⟨es, -, hs⟩ | ⟨es, -, hs⟩ | ⟨w, es, r, -, -, -, hs⟩ | ⟨w, es, i, rest, -, -, -, hs⟩
  · cases hs.symm.trans ht
    exact h
  · cases hs.symm.trans ht
    exact ⟨h.coef, h.hist⟩
  · cases hs.symm.trans ht
    exact ⟨rfl, rfl⟩
  · cases hs.symm.trans ht
    exact ⟨h.coef, h.hist⟩
  · refine exec_keeps_canonical ?_ (hs.symm.trans ht)
    exact ⟨h.coef, h.hist⟩

end

-- The event a step takes ------------------------------------------------------------------------------------------

theorem PortEvent.eq_of_isAction {e : PortEvent} (h : e.isAction = true) : e = .rspTaken ∨ e = .rst := by
  cases e with
  | cmdWord w => cases h
  | rspTaken => exact .inl rfl
  | rst => exact .inr rfl

theorem nextEvent_of_port_nil {s : State} (h : s.port = []) : nextEvent s = none := by
  by_cases hr : s.rsp = []
  · simp [nextEvent_of_taken hr, h]
  · rw [nextEvent_of_waiting hr, h]
    rfl

theorem deliveredWord_of_rspTaken {s : State} {es : List PortEvent} (h : nextEvent s = some (.rspTaken, es)) :
    deliveredWord s = s.rsp.head? := by
  simp [deliveredWord, h]

end Sys2Proof.Machine

namespace Sys2Proof.Claims

open Sys2Proof Sys2Proof.Machine

/-- A step leaves in the port what `nextEvent` leaves behind the event taken. -/
theorem step_port {s t : State} {e : PortEvent} {es : List PortEvent} (hn : nextEvent s = some (e, es))
    (h : step s = .next t) : t.port = es :=
  stepOn_port ((step_eq_stepOn hn).symm.trans h)

end Sys2Proof.Claims

namespace Sys2Proof.Proofs

open Sys2Proof Sys2Proof.Machine Sys2Proof.Claims

/-- Settles O49: `exec_keeps_canonical` for the commands; of the other things a step does only the hardware reset touches a
memory, and it empties both. -/
theorem everyStepKeepsMemoriesCanonical : Obligations.EveryStepKeepsMemoriesCanonical := by
  intro s t hcoef hhist ht
  obtain ⟨hcoef', hhist'⟩ := step_keeps_canonical ⟨hcoef, hhist⟩ ht
  exact ⟨hcoef', hhist'⟩

/-- Settles O9, by what `nextEvent` answers: no event, an offer at the front, or an action behind offers. -/
theorem stepTakesAtMostOnePortEvent : Obligations.StepTakesAtMostOnePortEvent := by
  intro s t h
  rcases nextEvent_cases s with ⟨hn, hnone⟩ | ⟨w, es, hr, hp, hn⟩ | ⟨ws, e, es, hp, he, hw, hn⟩
  · cases (step_of_no_event hn).symm.trans h
    rcases hnone with hp | ⟨hr, ws, hp⟩
    · exact ⟨fun _ => by rw [hp, List.drop_nil], fun _ => ⟨[], [], hp, .inl ⟨rfl, rfl⟩⟩⟩
    · exact ⟨fun hr' => absurd hr' hr, fun _ => ⟨ws, [], hp.trans (List.append_nil _).symm, .inl ⟨rfl, rfl⟩⟩⟩
  · have ht := step_port hn h
    exact ⟨fun _ => by rw [ht, hp, List.drop_one, List.tail_cons], fun hr' => absurd hr hr'⟩
  · have ht := step_port hn h
    refine ⟨fun hr => ?_, fun _ => ⟨ws, e :: es, hp, .inr ⟨e, es, rfl, PortEvent.eq_of_isAction he, ht⟩⟩⟩
    cases hw.resolve_right (not_not_intro hr)
    rw [ht, hp]
    rfl

/-- Settles O11: an acceptance is taken behind the offers that wait, and it delivers the front response word. -/
theorem responseWordsLeaveInOrder : Obligations.ResponseWordsLeaveInOrder := by
  refine ⟨fun s ws es hp hw => ?_, fun s hp => step_of_no_event (nextEvent_of_port_nil hp)⟩
  have hn := nextEvent_action hp rfl hw
  exact ⟨step_of_rspTaken hn, deliveredWord_of_rspTaken hn⟩

end Sys2Proof.Proofs
end

section
/-! PROOFS of the family 30_encoding: the decoder and the encoder are inverse to each other, the step that completes a command,
and the one response of every command. -/

namespace Sys2Proof

-- The fields of a header word --------------------------------------------------------------------------------------

theorem headerOpc_toNat (h : Word) : (headerOpc h).toNat = h.toNat / 2 ^ 28 := by
  have := h.isLt
  rw [headerOpc, BitVec.extractLsb'_toNat, Nat.shiftRight_eq_div_pow]
  omega

theorem headerRsv_toNat (h : Word) : (headerRsv h).toNat = h.toNat / 2 ^ 24 % 16 := by
  rw [headerRsv, BitVec.extractLsb'_toNat, Nat.shiftRight_eq_div_pow]

theorem headerArg_toNat (h : Word) : (headerArg h).toNat = h.toNat / 2 ^ 16 % 256 := by
  rw [headerArg, BitVec.extractLsb'_toNat, Nat.shiftRight_eq_div_pow]

theorem headerLen_eq (h : Word) : headerLen h = h.toNat % 2 ^ 16 := by
  rw [headerLen, BitVec.extractLsb'_toNat, Nat.shiftRight_zero]

/-- Bits put side by side, as numbers: the left ones count `2 ^ n` each. -/
theorem toNat_append_eq_add {m n : Nat} (x : BitVec m) (y : BitVec n) : (x ++ y).toNat = x.toNat * 2 ^ n + y.toNat := by
  rw [BitVec.toNat_append, ← Nat.shiftLeft_add_eq_or_of_lt y.isLt, Nat.shiftLeft_eq]

/-- The four fields are the whole word: a header has no bit outside them (30_encoding R71). -/
theorem append_headerFields (h : Word) :
    headerOpc h ++ headerRsv h ++ headerArg h ++ BitVec.ofNat 16 (headerLen h) = h := by
  apply BitVec.eq_of_toNat_eq
  simp only [toNat_append_eq_add, BitVec.toNat_ofNat, headerOpc_toNat, headerRsv_toNat, headerArg_toNat, headerLen_eq]
  omega

-- Decoding and encoding --------------------------------------------------------------------------------------------

/-- The opcode map gives back every well-formed command from its opcode (30_encoding R76). -/
theorem Instr.ofOpcode_opcode {i : Instr} (h : i.wf = true) : Instr.ofOpcode i.opcode i.body = i := by
  cases i with
  | reserved opc b =>
    have hopc : 8 ≤ opc.toNat := ((Instr.wf_reserved_iff opc b).mp h).1
    show Instr.ofOpcode opc b = .reserved opc b
    unfold Instr.ofOpcode
    split
    case h_9 => rfl
    all_goals omega
  | _ b => rfl

/-- A header with its whole payload behind it decodes, and exactly the words behind the payload are left (30_encoding R70,
R72). -/
theorem decode_of_payload {h : Word} {pay : List Word} (hl : pay.length = headerLen h) (rest : List Word) :
    decode (h :: (pay ++ rest)) =
      .ok (Instr.ofOpcode (headerOpc h) { rsv := headerRsv h, arg := headerArg h, pay := pay }, rest) := by
  rcases decode_cons h (pay ++ rest) with ⟨hlt, -⟩ | ⟨-, hok⟩
  · rw [List.length_append] at hlt
    omega
  · rw [hok, ← hl, List.take_left, List.drop_left]

/-- A well-formed command is read back from its own words (30_encoding R85). -/
theorem decode_encode_append {i : Instr} (h : i.wf = true) (rest : List Word) :
    decode (encode i ++ rest) = .ok (i, rest) := by
  obtain ⟨hopc, hrsv, harg, hlen⟩ := Laws.EncodedHeader.of_length (Instr.length_lt_of_wf h)
  rw [encode, List.cons_append, decode_of_payload hlen.symm, hopc, hrsv, harg, Instr.ofOpcode_opcode h]

theorem decode_encode {i : Instr} (h : i.wf = true) : decode (encode i) = .ok (i, []) := by
  simpa using decode_encode_append h []

/-- What the decoder reads is a well-formed command, and its words are the ones that were read (30_encoding R85). -/
theorem encode_of_decode {ws rest : List Word} {i : Instr} (hd : decode ws = .ok (i, rest)) :
    i.wf = true ∧ ws = encode i ++ rest := by
  cases ws with
  | nil => cases hd
  | cons h ws =>
    rcases decode_cons h ws with ⟨-, herr⟩ | ⟨hle, hok⟩
    · cases herr.symm.trans hd
    · have hlen : (ws.take (headerLen h)).length = headerLen h := List.length_take_of_le hle
      cases hok.symm.trans hd
      refine ⟨(Instr.wf_ofOpcode_iff _ _).mpr (Nat.lt_of_le_of_lt (Nat.le_of_eq hlen) (headerLen_lt h)), ?_⟩
      simp only [encode, header, Instr.opcode_ofOpcode, Instr.body_ofOpcode, hlen, append_headerFields, List.cons_append,
        List.take_append_drop]

/-- The words that hold no complete command are the whole tail of a stream (30_encoding R85). -/
theorem splitCommands_of_incomplete {tail : List Word} (h : ∀ i rest, decode tail ≠ .ok (i, rest)) (n : Nat) :
    splitCommands n tail = ([], tail) := by
  cases n with
  | zero => rfl
  | succ n =>
    unfold splitCommands
    split
    · rfl
    next i rest hd => exact absurd hd (h i rest)

/-- A well-formed command in front of a stream is split off. -/
theorem splitCommands_encode_append {i : Instr} (h : i.wf = true) (n : Nat) (ws : List Word) :
    splitCommands (n + 1) (encode i ++ ws) = (i :: (splitCommands n ws).1, (splitCommands n ws).2) := by
  simp only [splitCommands, decode_encode_append h]

-- The assembler lines ----------------------------------------------------------------------------------------------

/-- A PUSH line is the encoding of its command: the samples are counted in the field `LEN` (30_encoding R83). -/
theorem assemble_push {ss : List Word} (h : ss.length < 65536) :
    assemble (.push ss) = encode (.push (plainBody ss)) := by
  have hheader : 0x20000000 + BitVec.ofNat 32 ss.length = header (.push (plainBody ss)) := by
    apply BitVec.eq_of_toNat_eq
    simp only [header, Instr.opcode, Instr.body, plainBody, toNat_append_eq_add, BitVec.toNat_add, BitVec.ofNat_eq_ofNat,
      BitVec.toNat_ofNat]
    omega
  rw [assemble, encode, hheader]
  rfl

/-- An RDREG line is the encoding of its command: the index is the field `ARG` (30_encoding R83). -/
theorem assemble_rdreg (idx : BitVec 8) :
    assemble (.rdreg idx) = encode (.rdreg { rsv := 0, arg := idx, pay := [] }) := by
  have hheader : 0x60000000 + BitVec.ofNat 32 (idx.toNat * 0x10000) = header (.rdreg { rsv := 0, arg := idx, pay := [] }) := by
    have := idx.isLt
    apply BitVec.eq_of_toNat_eq
    simp only [header, Instr.opcode, Instr.body, toNat_append_eq_add, BitVec.toNat_add, BitVec.ofNat_eq_ofNat,
      BitVec.toNat_ofNat, List.length_nil]
    omega
  rw [assemble, encode, hheader]
  rfl

end Sys2Proof

namespace Sys2Proof.Machine

-- The step of a presented command ----------------------------------------------------------------------------------

/-- The last of a command's words completes it: the step executes it with an empty decoder (30_encoding R70). -/
theorem step_presentWords_encode {i : Instr} (h : i.wf = true) (s : State) :
    step (presentWords (encode i) s) = exec i { s with partialCmd := [], rsp := [] } := by
  have hne : encode i ≠ [] := List.cons_ne_nil _ _
  have hport : (presentWords (encode i) s).port = .cmdWord ((encode i).getLast hne) :: s.port := by
    simp only [presentWords, List.getLast?_eq_some_getLast hne, Option.map_some, Option.toList_some, List.singleton_append]
  have hd : decode ((presentWords (encode i) s).partialCmd ++ [(encode i).getLast hne]) = .ok (i, []) := by
    show decode ((encode i).dropLast ++ [(encode i).getLast hne]) = _
    rw [List.dropLast_concat_getLast, decode_encode h]
  exact step_of_command (nextEvent_cmdWord rfl hport) hd

-- From a state with the invariant no command's effect stops --------------------------------------------------------

/-- A total function is answered element by element, with as many answers as elements. -/
theorem forEach_total {α β : Type} {f : α → Except Fault β} {as : List α} (h : ∀ a ∈ as, ∃ b, f a = .ok b) :
    ∃ bs, forEach f as = .ok bs ∧ bs.length = as.length := by
  induction as with
  | nil => exact ⟨[], rfl, rfl⟩
  | cons a as ih =>
    obtain ⟨⟨b, hb⟩, has⟩ := List.forall_mem_cons.mp h
    obtain ⟨bs, hbs, hlen⟩ := ih has
    exact ⟨b :: bs, by simp only [forEach, hb, hbs], by simp only [List.length_cons, hlen]⟩

section
variable {p : Params} {s : State} {b : CmdBody}

/-- The whole ring of a sound configured block exists (20_memory R50, R52). -/
theorem InstanceInv.ring_le_capacity (I : InstanceInv p s) : s.histLen.toNat * s.chCount.toNat ≤ capacity p .hist := by
  rw [I.ringLength]
  exact Nat.mul_le_mul I.taps.2.2 I.channels.2

/-- The reduced rates are no larger than the rates (10_state R29). -/
theorem InstanceInv.reduced_lt (I : InstanceInv p s) : s.numerator.toNat < 2 ^ 31 ∧ s.denominator.toNat < 2 ^ 31 := by
  obtain ⟨hin, hin', -, hout'⟩ := I.rates
  have hg : 0 < Nat.gcd s.inRate.toNat s.outRate.toNat := Nat.gcd_pos_of_pos_left _ hin
  have hnum := Nat.le_mul_of_pos_right s.numerator.toNat hg
  have hden := Nat.le_mul_of_pos_right s.denominator.toNat hg
  rw [I.reducedIn] at hnum
  rw [I.reducedOut] at hden
  omega

/-- CONFIG with legal operands builds: the table and the cleared history fit their memories (40_construct R104, R106). -/
theorem buildInstance_of_legal {pay : List Word} (hp : p.ok) (hop : LegalOperands p pay) :
    ∃ t, buildInstance p pay s = .ok t ∧ t.rsp = s.rsp := by
  obtain ⟨-, -, ⟨-, -, hch⟩, ⟨-, -, hmod, hhalf⟩⟩ := hop
  have htable : 0 + (coefTable p (configRegisters p pay s)).length ≤ capacity p .coef := by
    rw [length_coefTable, configRegisters_numRows_toNat hp, Nat.zero_add]
    exact Nat.div_mul_le_self _ _
  have hring : 0 + (silence (configRegisters p pay s)).length ≤ capacity p .hist := by
    rw [silence, List.length_replicate, Nat.zero_add]
    exact Nat.mul_le_mul (Params.le_maxTaps hmod hhalf) hch
  unfold buildInstance
  rw [memWriteWords_of_fits (.inr htable)]
  exact ⟨_, memWriteWords_of_fits (.inr hring), rfl⟩

/-- PUSH of a whole frame writes it at the cursor: the frame lies in the ring (41_history R121). -/
theorem pushEffect_of_configured (I : InstanceInv p s) (hlen : b.pay.length = s.chCount.toNat) :
    pushEffect p b s = respond 0x2 .ok []
      { s with hist := writeAll (histAddress s s.cursor.toNat 0) b.pay s.hist, cursor := nextCursor s } := by
  have hc := I.cursorInRing
  have hfit : histAddress s s.cursor.toNat 0 + b.pay.length ≤ capacity p .hist := by
    rw [hlen]
    exact Nat.le_trans (histAddress_frame_le hc) I.ring_le_capacity
  unfold pushEffect
  rw [if_neg (by omega), memWriteWords_of_fits (.inr hfit)]
  rfl

/-- ADVANCE of an aligned block has room for the sum (42_phase R135). -/
theorem advanceEffect_of_configured (I : InstanceInv p s) :
    advanceEffect s = if phaseAligned s = false then raiseError 0x4 .errPhase [] s
      else respond 0x4 .ok [] { s with phase := s.phase + s.numerator } := by
  obtain ⟨hnum, hden⟩ := I.reduced_lt
  unfold advanceEffect
  split
  · rfl
  next hal =>
  have hal : s.phase.toNat < s.denominator.toNat := by simpa [phaseAligned] using hal
  rw [if_neg (by omega)]

-- READ reads written words only.

/-- Every row of a sound block's table can be read (20_memory R51). -/
theorem coefRow_of_configured (I : InstanceInv p s) {r : Nat} (hr : r < s.numRows.toNat) : ∃ row, coefRow p s r = .ok row := by
  have hread : ∀ k ∈ List.range s.tapCount.toNat, ∃ w, memRead p .coef (r * s.tapCount.toNat + k) s = .ok w := by
    intro k hk
    have hrow : (r + 1) * s.tapCount.toNat ≤ s.numRows.toNat * s.tapCount.toNat := Nat.mul_le_mul_right _ hr
    have hlt : r * s.tapCount.toNat + k < s.numRows.toNat * s.tapCount.toNat := by
      rw [Nat.succ_mul] at hrow
      have := List.mem_range.mp hk
      omega
    exact ⟨_, memRead_eq_ok_iff.mpr ⟨Nat.lt_of_lt_of_le hlt I.tableFits, (I.table _).trans (if_pos hlt)⟩⟩
  obtain ⟨row, hrow, -⟩ := forEach_total hread
  exact ⟨row, hrow⟩

/-- Every channel of a sound block's window can be read (41_history R122). -/
theorem window_of_configured (I : InstanceInv p s) {c : Nat} (hc : c < s.chCount.toNat) :
    ∃ samples, window p s c = .ok samples := by
  have hread : ∀ j ∈ List.range s.tapCount.toNat, ∃ w, windowSample p s c j = .ok w := by
    intro j _
    have hL : 0 < s.histLen.toNat := Nat.zero_lt_of_lt I.cursorInRing
    have hframe : (windowIndex s j + 1) * s.chCount.toNat ≤ s.histLen.toNat * s.chCount.toNat :=
      Nat.mul_le_mul_right _ (Nat.mod_lt _ hL)
    have hlt : histAddress s (windowIndex s j) c < s.histLen.toNat * s.chCount.toNat := by
      rw [Nat.succ_mul] at hframe
      rw [histAddress]
      omega
    obtain ⟨w, hw⟩ := Option.isSome_iff_exists.mp ((I.ringWritten _).trans (decide_eq_true hlt))
    exact ⟨w, memRead_eq_ok_iff.mpr ⟨Nat.lt_of_lt_of_le hlt I.ring_le_capacity, hw⟩⟩
  obtain ⟨samples, hs, -⟩ := forEach_total hread
  exact ⟨samples, hs⟩

/-- A READ whose two rows are in the table answers a frame of `C` samples (43_read_mac R145). -/
theorem outputFrame_of_configured (I : InstanceInv p s) (hrow : indexHigh s < s.numRows.toNat) :
    ∃ out, outputFrame p s = .ok out ∧ out.length = s.chCount.toNat := by
  obtain ⟨low, hlow⟩ := coefRow_of_configured I (Nat.lt_of_succ_lt hrow : indexLow s < s.numRows.toNat)
  obtain ⟨high, hhigh⟩ := coefRow_of_configured I hrow
  have hsample : ∀ c ∈ List.range s.chCount.toNat, ∃ w, outputSample p s low high c = .ok w := by
    intro c hc
    obtain ⟨samples, hs⟩ := window_of_configured I (List.mem_range.mp hc)
    simp only [outputSample, hs, Except.ok.injEq, exists_eq']
  obtain ⟨out, hout, hlen⟩ := forEach_total hsample
  exact ⟨out, by simp only [outputFrame, hlow, hhigh, hout], hlen.trans List.length_range⟩

/-- READ of a sound block either enters the fault, when the high row is beyond the table, or answers a frame of `C` samples
(43_read_mac R145). -/
theorem readEffect_of_configured (I : InstanceInv p s) :
    (s.numRows.toNat ≤ indexHigh s ∧ readEffect p s = enterFault 0x3 s) ∨
    (indexHigh s < s.numRows.toNat ∧ ∃ out, outputFrame p s = .ok out ∧ out.length = s.chCount.toNat ∧
      readEffect p s = respond 0x3 .ok out { s with nanReads := s.nanReads + 1 }) := by
  obtain ⟨-, hrows⟩ := I.rows
  have hden := I.denominator_pos
  have hcur := I.cursorInRing
  have hL := congrArg BitVec.toNat I.ringLength
  have hsel : selectorDefined s = true := by
    simp only [selectorDefined, Bool.and_eq_true, decide_eq_true_eq]
    omega
  have hwin : windowDefined s = true := by
    simp only [windowDefined, Bool.and_eq_true, decide_eq_true_eq]
    omega
  unfold readEffect
  rw [if_neg (by simp [hsel])]
  by_cases hrow : s.numRows.toNat ≤ indexHigh s
  · exact .inl ⟨hrow, if_pos hrow⟩
  · obtain ⟨out, hout, hlen⟩ := outputFrame_of_configured I (Nat.lt_of_not_le hrow)
    rw [if_neg hrow, if_neg (by simp [hwin]), hout]
    exact .inr ⟨Nat.lt_of_not_le hrow, out, rfl, hlen, rfl⟩

end

end Sys2Proof.Machine

namespace Sys2Proof.Claims

open Sys2Proof Sys2Proof.Machine

-- The response header ----------------------------------------------------------------------------------------------

theorem rspFlags_toNat : ∀ cv fl wn : Bool,
    (rspFlags cv fl wn).toNat = (BitVec.ofBool wn ++ BitVec.ofBool fl ++ BitVec.ofBool cv).toNat * 2 ^ 16 := by decide

/-- The flags of a state stand at bits 18:16 of a response header (30_encoding R73). -/
theorem leftFlags_toNat (s : State) : (leftFlags s).toNat = (flagBits s).toNat * 2 ^ 16 := by
  rw [leftFlags, rspFlags_toNat, flagBits, writeNeeded]

/-- A response header as a sum of its fields (30_encoding R73). -/
theorem rspHeader_eq_add (opc : BitVec 4) (st : Status) (s : State) {n : Nat} (hn : n < 65536) :
    rspHeader opc st s n = BitVec.ofNat 32 (opc.toNat * 2 ^ 28 + (statusCode st).toNat * 2 ^ 24 + n) + leftFlags s := by
  have hopc := opc.isLt
  have hst := (statusCode st).isLt
  have hfl := (flagBits s).isLt
  apply BitVec.eq_of_toNat_eq
  rw [rspHeader, toNat_append_eq_add, toNat_append_eq_add, toNat_append_eq_add, toNat_append_eq_add, BitVec.toNat_add,
    BitVec.toNat_ofNat, BitVec.toNat_ofNat, BitVec.toNat_ofNat, leftFlags_toNat]
  omega

-- One response -----------------------------------------------------------------------------------------------------

/-- The outcome of a command in the state `s` is a next state whose response stream is that of `s` and one response with the
command's opcode, the flags of the state left and the command's response length (30_encoding R73). -/
def AnswersOnce (i : Instr) (s : State) (r : Result) : Prop :=
  ∃ (t : State) (st : Status) (out : List Word), r = .next t ∧ out.length = answerLength i st s ∧ out.length < 65536 ∧
    t.rsp = s.rsp ++ rspHeader i.opcode st t out.length :: out

section
variable {i : Instr} {s u : State} {st : Status} {out : List Word}

theorem AnswersOnce.of_respond (hlen : out.length = answerLength i st s) (hlt : out.length < 65536) (hrsp : u.rsp = s.rsp) :
    AnswersOnce i s (respond i.opcode st out u) :=
  ⟨_, st, out, rfl, hlen, hlt, congrArg (· ++ _) hrsp⟩

/-- A response without a payload. -/
theorem AnswersOnce.of_header (hlen : answerLength i st s = 0) (hrsp : u.rsp = s.rsp) :
    AnswersOnce i s (respond i.opcode st [] u) :=
  .of_respond hlen.symm (by decide) hrsp

/-- The common errors carry no payload (30_encoding R73). -/
theorem answerLength_common (h : st = .errIllegal ∨ st = .errFaulted ∨ st = .errState ∨ st = .errLength) :
    answerLength i st s = 0 := by
  rcases h with rfl | rfl | rfl | rfl
  all_goals
    cases i with
    | _ => rfl

/-- A command answers once when its effect does past the common checks. -/
theorem AnswersOnce.of_command {req : Requires} {ua : Bool} {n : Nat} {b : CmdBody} {eff : Result}
    (heff : protocolError req ua n b s = none → AnswersOnce i s eff) :
    AnswersOnce i s (command i.opcode req ua n b s eff) := by
  rcases command_cases i.opcode req ua n b s eff with ⟨e, he, hc⟩ | ⟨hok, hc⟩
  · rw [hc]
    exact .of_header (u := s) (answerLength_common (protocolError_cases he)) rfl
  · rw [hc]
    exact heff hok

end

section
variable {p : Params} {s : State} (b : CmdBody)

theorem configEffect_answersOnce (hp : p.ok) : AnswersOnce (.config b) s (configEffect p b s) := by
  unfold configEffect
  split
  · exact .of_respond (i := .config b) rfl (by simp) rfl
  next hmask =>
    have hop := (configErrors_eq_zero_iff p b.pay).mp (Classical.not_not.mp hmask)
    obtain ⟨u, hu, hrsp⟩ := buildInstance_of_legal (s := s) hp hop
    rw [hu]
    exact .of_header (i := .config b) rfl hrsp

theorem readEffect_answersOnce (hp : p.ok) (I : InstanceInv p s) : AnswersOnce (.read b) s (readEffect p s) := by
  rcases readEffect_of_configured I with ⟨-, hr⟩ | ⟨-, out, -, hlen, hr⟩
  · rw [hr]
    exact .of_header (i := .read b) rfl rfl
  · obtain ⟨-, hch⟩ := I.channels
    obtain ⟨-, -, -, hmax⟩ := hp
    rw [hr]
    exact .of_respond (i := .read b) hlen (by omega) rfl

theorem advanceEffect_answersOnce (I : InstanceInv p s) : AnswersOnce (.advance b) s (advanceEffect s) := by
  rw [advanceEffect_of_configured I]
  split
  · exact .of_header (i := .advance b) rfl rfl
  · exact .of_header (i := .advance b) rfl rfl

theorem consumeEffect_answersOnce : AnswersOnce (.consume b) s (consumeEffect s) := by
  unfold consumeEffect
  split
  · exact .of_header (i := .consume b) rfl rfl
  · exact .of_header (i := .consume b) rfl rfl

theorem rdregEffect_answersOnce : AnswersOnce (.rdreg b) s (rdregEffect p b s) := by
  unfold rdregEffect
  split
  · exact .of_respond (i := .rdreg b) rfl (by simp) rfl
  · exact .of_header (i := .rdreg b) rfl rfl

end

/-- Every command answers once from a state with the invariant, which only the work commands need. -/
theorem exec_answersOnce (i : Instr) {s : State} (h : Inv P s) : AnswersOnce i s (exec i s) := by
  have hp : P.ok := Config.params_ok
  cases i with
  | nop b => exact .of_command (i := .nop b) (fun _ => .of_header (i := .nop b) rfl rfl)
  | config b => exact .of_command (i := .config b) (fun _ => configEffect_answersOnce b hp)
  | push b =>
    refine .of_command (i := .push b) (fun hok => ?_)
    obtain ⟨⟨hv, -⟩, hlen⟩ := live_of_checks hok
    rw [pushEffect_of_configured (h.configured hv) hlen]
    exact .of_header (i := .push b) rfl rfl
  | read b =>
    exact .of_command (i := .read b) (fun hok => readEffect_answersOnce b hp (h.configured (live_of_checks hok).1.1))
  | advance b =>
    exact .of_command (i := .advance b) (fun hok => advanceEffect_answersOnce b (h.configured (live_of_checks hok).1.1))
  | consume b => exact .of_command (i := .consume b) (fun _ => consumeEffect_answersOnce b)
  | rdreg b => exact .of_command (i := .rdreg b) (fun _ => rdregEffect_answersOnce b)
  | reset b => exact .of_command (i := .reset b) (fun _ => .of_header (i := .reset b) rfl rfl)
  | reserved opc b => exact .of_header (i := .reserved opc b) rfl rfl

end Sys2Proof.Claims

namespace Sys2Proof.Proofs

open Sys2Proof Sys2Proof.Machine Sys2Proof.Claims

/-- Settles O1: the encoded header carries the command's own fields, so the decoder takes exactly its payload, and the opcode
map gives back the constructor. -/
theorem decodeGivesBackEveryEncodedCommand : Obligations.DecodeGivesBackEveryEncodedCommand :=
  fun _ rest h => decode_encode_append h rest

/-- Settles O2: the four fields that the decoder reads are all bits of the header. -/
theorem encodeGivesBackEveryDecodedSequence : Obligations.EncodeGivesBackEveryDecodedSequence :=
  fun _ _ _ hd => encode_of_decode hd

/-- Settles O3, by induction on the commands: each is split off by its own encoding. -/
theorem streamSplitsIntoItsCommands : Obligations.StreamSplitsIntoItsCommands := by
  intro cmds tail n hwf htail hn
  induction cmds generalizing n with
  | nil => exact splitCommands_of_incomplete htail n
  | cons i cmds ih =>
    obtain ⟨hi, hcmds⟩ := List.forall_mem_cons.mp hwf
    obtain ⟨n, rfl⟩ : ∃ m, n = m + 1 := Nat.exists_eq_add_one.mpr (Nat.lt_of_lt_of_le (Nat.succ_pos _) hn)
    rw [List.flatMap_cons, List.append_assoc, splitCommands_encode_append hi, ih n hcmds (Nat.le_of_succ_le_succ hn)]

/-- Settles O4, field by field. -/
theorem headerFieldsStandWhereTheFormatPutsThem : Obligations.HeaderFieldsStandWhereTheFormatPutsThem := by
  intro h pay rest hlen
  refine ⟨_, decode_of_payload (hlen.trans (headerLen_eq h).symm) rest, ?_⟩
  simp only [Instr.opcode_ofOpcode, Instr.body_ofOpcode, headerOpc_toNat, headerRsv_toNat, headerArg_toNat, and_self]

/-- Settles O5: the listed words are literals, and the decoder is run on them. -/
theorem listedEncodingsDecode : Obligations.ListedEncodingsDecode :=
  ⟨rfl, rfl, rfl, rfl, rfl, rfl, rfl, rfl, rfl⟩

/-- Settles O6: the lines with a computed header are encodings, the headers of the others are literals. -/
theorem assembledLinesDecodeToTheirCommands : Obligations.AssembledLinesDecodeToTheirCommands := by
  refine ⟨fun _ _ _ _ _ => rfl, fun ss h => ?_, fun idx => ?_, rfl, rfl, rfl, rfl, rfl⟩
  · rw [assemble_push h]
    exact decode_encode (decide_eq_true h)
  · rw [assemble_rdreg]
    exact decode_encode rfl

/-- Settles O7: the command word at the front is the event taken, and the decoder's answer decides. -/
theorem commandRunsWhenItsLastWordArrives : Obligations.CommandRunsWhenItsLastWordArrives :=
  fun _ _ _ hr hp => ⟨fun _ _ hd => step_of_command (nextEvent_cmdWord hr hp) hd,
    fun _ hd => step_of_partial (nextEvent_cmdWord hr hp) hd⟩

/-- Settles O8: the buffer and the presented word together are the command's encoding. -/
theorem presentedCommandRunsInTheNextStep : Obligations.PresentedCommandRunsInTheNextStep :=
  fun _ s h => step_presentWords_encode h s

/-- Settles O18: `exec_answersOnce`, with the header written as a sum of its fields. -/
theorem everyCommandAnswersExactlyOnce : Obligations.EveryCommandAnswersExactlyOnce := by
  intro i s h
  obtain ⟨t, st, out, ht, hlen, hlt, hrsp⟩ := exec_answersOnce i h
  exact ⟨t, st, out, ht, hlen, hlt, rspHeader_eq_add i.opcode st t hlt ▸ hrsp⟩

end Sys2Proof.Proofs
end

section
/-! PROOFS of the family 40_construct: what CONFIG builds, and the part of the state that each command writes. -/

namespace Sys2Proof.Machine

-- What CONFIG builds -----------------------------------------------------------------------------------------------

section
variable {p : Params} {pay : List Word} {s : State}

/-- Words written from address 0 up read back, and beyond them the memory reads as before. -/
theorem memoryRead_writeAll_zero (ws : List Word) (m : Memory) (a : Nat) :
    memoryRead (writeAll 0 ws m) a = if a < ws.length then ws[a]? else memoryRead m a := by
  simpa using memoryRead_writeAll 0 a ws m

/-- The table written over any memory reads as the generator's words, and beyond it the memory reads as before
(40_construct R106). -/
theorem memoryRead_writeAll_coefTable (m : Memory) (a : Nat) : memoryRead (writeAll 0 (coefTable p s) m) a =
    if a < s.numRows.toNat * s.tapCount.toNat then
      some (tableWord p s.inRate s.outRate s.cutoff s.numRows s.tapCount a) else memoryRead m a := by
  rw [memoryRead_writeAll_zero, length_coefTable]
  refine ite_congr rfl (fun h => ?_) (fun _ => rfl)
  simp [coefTable, h]

/-- The cleared history written over any memory reads as `+0.0`, and beyond it the memory reads as before
(40_construct R106). -/
theorem memoryRead_writeAll_silence (m : Memory) (a : Nat) : memoryRead (writeAll 0 (silence s) m) a =
    if a < s.tapCount.toNat * s.chCount.toNat then some 0 else memoryRead m a := by
  rw [memoryRead_writeAll_zero, silence, List.length_replicate]
  exact ite_congr rfl (fun h => List.getElem?_replicate_of_lt h) (fun _ => rfl)

/-- The state that a successful CONFIG leaves but for its response (40_construct R104, R106). -/
def configuredState (p : Params) (pay : List Word) (s : State) : State :=
  { configRegisters p pay s with
    coef := writeAll 0 (coefTable p (configRegisters p pay s)) s.coef
    hist := writeAll 0 (silence (configRegisters p pay s)) s.hist }

/-- CONFIG with legal operands builds the instance and answers `OK` (40_construct R104). -/
theorem configEffect_of_legal {b : CmdBody} (hp : p.ok) (hop : LegalOperands p b.pay) :
    configEffect p b s = respond 0x1 .ok [] (configuredState p b.pay s) := by
  obtain ⟨u, hu, -⟩ := buildInstance_of_legal (s := s) hp hop
  unfold configEffect
  have hmask : configErrors p b.pay = 0 := (configErrors_eq_zero_iff p b.pay).mpr hop
  rw [if_neg (not_not_intro hmask), hu, buildInstance_eq_ok hu]
  rfl

/-- The reduced output rate of legal operands is not 0 (10_state R29). -/
theorem configRegisters_denominator_pos (hop : LegalOperands p pay) : 0 < (configRegisters p pay s).denominator.toNat := by
  obtain ⟨-, ⟨hout, -⟩, -, -⟩ := hop
  rw [configRegisters_denominator_toNat]
  exact Nat.div_pos (Nat.gcd_le_right _ hout) (Nat.gcd_pos_of_pos_right _ hout)

end

-- What each command can leave, whatever state it starts in ----------------------------------------------------------

section
variable {p : Params} {s t : State}

/-- A command that answers a next state has been refused and has only responded, or has passed the common checks and its
effect has answered that state. -/
theorem command_eq_next {opc : BitVec 4} {req : Requires} {ua : Bool} {n : Nat} {b : CmdBody} {eff : Result}
    (ht : command opc req ua n b s eff = .next t) :
    (∃ ws, t = s.answer ws) ∨ (protocolError req ua n b s = none ∧ eff = .next t) := by
  rcases command_cases opc req ua n b s eff with ⟨e, -, hc⟩ | ⟨hok, hc⟩
  · cases hc.symm.trans ht
    exact .inl ⟨_, rfl⟩
  · exact .inr ⟨hok, hc.symm.trans ht⟩

/-- The effect of CONFIG only responds (40_construct R107) or leaves `configuredState` and a response (R104). -/
theorem configEffect_eq_next {b : CmdBody} (ht : configEffect p b s = .next t) :
    ∃ ws, t = s.answer ws ∨ t = (configuredState p b.pay s).answer ws := by
  unfold configEffect at ht
  split at ht
  · cases ht
    exact ⟨_, .inl rfl⟩
  · obtain ⟨u, hu, ht⟩ := orStop_eq_next_iff.mp ht
    cases ht
    rw [buildInstance_eq_ok hu]
    exact ⟨_, .inr rfl⟩

/-- The effect of PUSH writes its payload at the cursor's frame, moves the cursor on and responds (41_history R121). -/
theorem pushEffect_eq_next {b : CmdBody} (ht : pushEffect p b s = .next t) :
    ∃ ws, t = State.answer ws
      { s with hist := writeAll (histAddress s s.cursor.toNat 0) b.pay s.hist, cursor := nextCursor s } := by
  unfold pushEffect at ht
  split at ht
  · cases ht
  · obtain ⟨u, hu, ht⟩ := orStop_eq_next_iff.mp ht
    cases ht
    rw [memWriteWords_eq_ok hu]
    exact ⟨_, rfl⟩

/-- The effect of READ enters the fault (60_exceptions R193), or it counts one READ answered (entry 8); both respond. -/
theorem readEffect_eq_next (ht : readEffect p s = .next t) :
    ∃ ws, t = State.answer ws { s with fault := true, faultCause := 1 } ∨
      t = State.answer ws { s with nanReads := s.nanReads + 1 } := by
  unfold readEffect at ht
  split at ht
  · cases ht
  split at ht
  · cases ht
    exact ⟨_, .inl rfl⟩
  split at ht
  · cases ht
  · obtain ⟨out, -, ht⟩ := orStop_eq_next_iff.mp ht
    cases ht
    exact ⟨_, .inr rfl⟩

/-- The effect of ADVANCE only responds, or it also adds to the phase (42_phase R132). -/
theorem advanceEffect_eq_next (ht : advanceEffect s = .next t) :
    ∃ ws, t = s.answer ws ∨ t = State.answer ws { s with phase := s.phase + s.numerator } := by
  unfold advanceEffect at ht
  split at ht
  · cases ht
    exact ⟨_, .inl rfl⟩
  split at ht
  · cases ht
  · cases ht
    exact ⟨_, .inr rfl⟩

/-- The effect of CONSUME only responds, or it also takes from the phase (42_phase R133). -/
theorem consumeEffect_eq_next (ht : consumeEffect s = .next t) :
    ∃ ws, t = s.answer ws ∨ t = State.answer ws { s with phase := s.phase - s.denominator } := by
  unfold consumeEffect at ht
  split at ht
  · cases ht
    exact ⟨_, .inl rfl⟩
  · cases ht
    exact ⟨_, .inr rfl⟩

/-- The effect of RDREG only responds (44_system R172). -/
theorem rdregEffect_eq_next {b : CmdBody} (ht : rdregEffect p b s = .next t) : ∃ ws, t = s.answer ws := by
  unfold rdregEffect at ht
  split at ht
  · cases ht
    exact ⟨_, rfl⟩
  · cases ht
    exact ⟨_, rfl⟩

end

end Sys2Proof.Machine

namespace Sys2Proof.Claims

open Sys2Proof Sys2Proof.Machine

/-- The mask as a number is empty exactly on the operands that CONFIG accepts (40_construct R104, 60_exceptions R186). -/
theorem configMask_eq_zero_iff (inR outR ch taps cut : Word) :
    configMask inR outR ch taps = 0 ↔ LegalOperands P [inR, outR, ch, taps, cut] := by
  have hbit (failed : Bool) (bit : Nat) (h : bit < 7) := maskBit_eq_zero_iff failed bit (by omega)
  rw [← configErrors_eq_zero_iff]
  simp only [configMask, Nat.add_eq_zero_iff, ite_eq_right_iff, Nat.reduceEqDiff, imp_false,
    configErrors, BitVec.or_eq_zero_iff, hbit, Nat.reduceLT, decide_eq_false_iff_not, payInt, payWord,
    List.getD_cons_zero, List.getD_cons_succ, ne_eq, BitVec.ofNat_eq_ofNat, lowBits_eq_zero_iff]

/-- The response header of a successful CONFIG: of the flags only `CFG_VALID` is set, since the phase is 0 (30_encoding R74). -/
theorem rspHeader_configuredState {p : Params} {pay : List Word} {s : State} (hop : LegalOperands p pay)
    (hf : s.fault = false) : rspHeader 0x1 .ok (configuredState p pay s) 0 = 0x10010000 := by
  have hden : ¬ (configRegisters p pay s).denominator.toNat ≤ 0 := Nat.not_le.mpr (configRegisters_denominator_pos hop)
  have hflags : leftFlags (configuredState p pay s) = rspFlags true false false := by
    show rspFlags true s.fault (true && decide ((configRegisters p pay s).denominator.toNat ≤ 0)) = _
    rw [hf, decide_eq_false hden]
    rfl
  rw [rspHeader_eq_add _ _ _ (by decide), hflags]
  rfl

/-- CONFIG with legal operands on an unconfigured, unfaulted block, whole (40_construct R104). -/
theorem exec_config_of_legal {pay : List Word} {s : State} (hlen : pay.length = 5) (hop : LegalOperands P pay)
    (hv : s.cfgValid = false) (hf : s.fault = false) :
    exec (.config (plainBody pay)) s = .next ((configuredState P pay s).answer [0x10010000]) := by
  have hok : protocolError .noInstance false 5 (plainBody pay) s = none :=
    protocolError_eq_none_iff.mpr ⟨rfl, .inr rfl, hf, hv, hlen⟩
  calc exec (.config (plainBody pay)) s
      = configEffect P (plainBody pay) s := command_of_checks hok
    _ = respond 0x1 .ok [] (configuredState P pay s) := configEffect_of_legal (b := plainBody pay) Config.params_ok hop
    _ = .next ((configuredState P pay s).answer [0x10010000]) := by
      rw [respond_eq, List.length_nil, rspHeader_configuredState hop hf]

end Sys2Proof.Claims

namespace Sys2Proof.Proofs

open Sys2Proof Sys2Proof.Machine Sys2Proof.Claims

/-- Settles O20: the operands are legal, so CONFIG leaves `configuredState`, whose memories read as what was written where it
was written and as before elsewhere. -/
theorem configBuildsTheInstance : Obligations.ConfigBuildsTheInstance := by
  intro inR outR ch taps cut s hv hf hmask
  have hop := (configMask_eq_zero_iff inR outR ch taps cut).mp hmask
  have hrows := configRegisters_numRows_toNat (pay := [inR, outR, ch, taps, cut]) (s := s) Config.params_ok
  refine ⟨_, exec_config_of_legal rfl hop hv hf, fun a => ?_, memoryRead_writeAll_silence s.hist, rfl⟩
  refine (memoryRead_writeAll_coefTable s.coef a).trans ?_
  rw [tableWord, hrows]
  rfl

/-- Settles O50, command by command: a refusal only responds, and past the checks each effect leaves the state its own lemma
above gives. -/
theorem stateIsWrittenOnlyByItsCommands : Obligations.StateIsWrittenOnlyByItsCommands := by
  intro i s t ht
  refine ⟨exec_port ht, ?_⟩
  cases i with
  | nop b =>
    obtain ⟨ws, rfl⟩ | ⟨-, ht⟩ := command_eq_next ht
    · rfl
    · cases ht
      rfl
  | config b =>
    obtain ⟨ws, rfl⟩ | ⟨-, ht⟩ := command_eq_next ht
    · exact ⟨rfl, rfl, rfl, rfl, fun _ _ => rfl, fun _ _ => rfl⟩
    obtain ⟨ws, rfl | rfl⟩ := configEffect_eq_next ht
    · exact ⟨rfl, rfl, rfl, rfl, fun _ _ => rfl, fun _ _ => rfl⟩
    · exact ⟨rfl, rfl, rfl, rfl,
        fun a ha => (memoryRead_writeAll_coefTable s.coef a).trans (if_neg (Nat.not_lt.mpr ha)),
        fun a ha => (memoryRead_writeAll_silence s.hist a).trans (if_neg (Nat.not_lt.mpr ha))⟩
  | push b =>
    obtain ⟨ws, rfl⟩ | ⟨hok, ht⟩ := command_eq_next ht
    · exact ⟨rfl, fun _ _ => rfl⟩
    obtain ⟨-, hlen⟩ := live_of_checks hok
    obtain ⟨ws, rfl⟩ := pushEffect_eq_next ht
    exact ⟨rfl, fun a ha => (memoryRead_writeAll _ a b.pay s.hist).trans (if_neg (hlen ▸ ha))⟩
  | read b =>
    obtain ⟨ws, rfl⟩ | ⟨-, ht⟩ := command_eq_next ht
    · rfl
    obtain ⟨ws, rfl | rfl⟩ := readEffect_eq_next ht
    · rfl
    · rfl
  | advance b =>
    obtain ⟨ws, rfl⟩ | ⟨-, ht⟩ := command_eq_next ht
    · rfl
    obtain ⟨ws, rfl | rfl⟩ := advanceEffect_eq_next ht
    · rfl
    · rfl
  | consume b =>
    obtain ⟨ws, rfl⟩ | ⟨-, ht⟩ := command_eq_next ht
    · rfl
    obtain ⟨ws, rfl | rfl⟩ := consumeEffect_eq_next ht
    · rfl
    · rfl
  | rdreg b =>
    obtain ⟨ws, rfl⟩ | ⟨-, ht⟩ := command_eq_next ht
    · rfl
    obtain ⟨ws, rfl⟩ := rdregEffect_eq_next ht
    rfl
  | reset b =>
    obtain ⟨ws, rfl⟩ | ⟨-, ht⟩ := command_eq_next ht
    · rfl
    · cases ht
      rfl
  | reserved opc b =>
    cases ht
    rfl

end Sys2Proof.Proofs
end

section
/-! PROOFS of the family 41_history: the frame that PUSH writes, and the window behind the cursor that it moves on. -/

namespace Sys2Proof.Machine

section
variable {pay : List Word} {s : State}

/-- The state that PUSH leaves but for its response (41_history R121). -/
def pushedState (pay : List Word) (s : State) : State :=
  { s with hist := writeAll (histAddress s s.cursor.toNat 0) pay s.hist, cursor := nextCursor s }

/-- The cursor moves on by one, and from the last frame of the ring to the first (41_history R121). -/
theorem nextCursor_eq_ite (h : s.cursor.toNat < s.histLen.toNat) :
    nextCursor s = if s.cursor.toNat + 1 = s.histLen.toNat then 0 else s.cursor + 1 := by
  have hL := s.histLen.isLt
  apply BitVec.eq_of_toNat_eq
  rw [nextCursor_toNat (by omega)]
  split
  next hlast => rw [hlast, Nat.mod_self, BitVec.ofNat_eq_ofNat, BitVec.toNat_zero]
  next hinside =>
    have hone : (1 : Word).toNat = 1 := rfl
    rw [Nat.mod_eq_of_lt (by omega), BitVec.toNat_add_of_lt (by omega), hone]

/-- The frame `j` places after the moved cursor is the one `j + 1` places after the old cursor (41_history R122). -/
theorem nextCursor_add_mod (h : 0 < s.histLen.toNat) (j : Nat) :
    ((nextCursor s).toNat + j) % s.histLen.toNat = (s.cursor.toNat + (j + 1)) % s.histLen.toNat := by
  rw [nextCursor_toNat h, Nat.mod_add_mod, Nat.add_assoc, Nat.add_comm 1 j]

/-- After PUSH of a whole frame `HIST` reads as the payload in the frame at the old cursor, and elsewhere as before
(41_history R121). -/
theorem memoryRead_pushedState (hlen : pay.length = s.chCount.toNat) (a : Nat) :
    memoryRead (pushedState pay s).hist a =
      if s.cursor.toNat * s.chCount.toNat ≤ a ∧ a < s.cursor.toNat * s.chCount.toNat + s.chCount.toNat then
        pay[a - s.cursor.toNat * s.chCount.toNat]?
      else memoryRead s.hist a := by
  refine (memoryRead_writeAll _ a pay s.hist).trans ?_
  rw [hlen, histAddress, Nat.add_zero]

/-- An address of channel `c` of frame `f` lies in frame `g` only when `f` is `g` (20_memory R52). -/
theorem frameAddress_mem_frame_iff {f g n c : Nat} (hc : c < n) : g * n ≤ f * n + c ∧ f * n + c < g * n + n ↔ f = g := by
  have hf : (f * n + c) / n = f := by
    rw [Nat.add_comm, Nat.add_mul_div_right c f (by omega), Nat.div_eq_of_lt hc, Nat.zero_add]
  rw [← Nat.succ_mul, ← Nat.le_div_iff_mul_le (by omega), ← Nat.div_lt_iff_lt_mul (by omega), hf]
  omega

/-- PUSH writes its payload word `c` to channel `c` of the frame at the old cursor, and no other frame (41_history R124). -/
theorem memoryRead_pushedState_frame (hlen : pay.length = s.chCount.toNat) {c : Nat} (hc : c < s.chCount.toNat) (f : Nat) :
    memoryRead (pushedState pay s).hist (f * s.chCount.toNat + c) =
      if f = s.cursor.toNat then pay[c]? else memoryRead s.hist (f * s.chCount.toNat + c) := by
  rw [memoryRead_pushedState hlen]
  refine ite_congr (propext (frameAddress_mem_frame_iff hc)) (fun h => ?_) (fun _ => rfl)
  rw [h, Nat.add_sub_cancel_left]

/-- Of the frames 1 to `n` places after the cursor of a ring of `n` only the last is the frame at the cursor itself
(41_history R122). -/
theorem ring_index_eq_cursor_iff {cur j n : Nat} (hcur : cur < n) (hj : j < n) : (cur + (j + 1)) % n = cur ↔ ¬ j + 1 < n := by
  by_cases hwrap : cur + (j + 1) < n
  · rw [Nat.mod_eq_of_lt hwrap]
    omega
  · rw [Nat.mod_eq_sub_mod (by omega), Nat.mod_eq_of_lt (by omega)]
    omega

end

end Sys2Proof.Machine

namespace Sys2Proof.Claims

open Sys2Proof Sys2Proof.Machine

section
variable {pay : List Word} {s : State}

/-- PUSH of a whole frame on a live block, whole: it moves neither flags nor phase (41_history R121). -/
theorem exec_push_of_live (h : Inv P s) (hl : Live s) (hlen : pay.length = s.chCount.toNat) :
    exec (.push (plainBody pay)) s = .next ((pushedState pay s).answer [0x20000000 + leftFlags s]) := by
  obtain ⟨hv, hf⟩ := hl
  have hok : protocolError .liveInstance false s.chCount.toNat (plainBody pay) s = none :=
    protocolError_eq_none_iff.mpr ⟨rfl, .inr rfl, hf, by rw [refusedByState, hv]; rfl, hlen⟩
  calc exec (.push (plainBody pay)) s
      = pushEffect P (plainBody pay) s := command_of_checks hok
    _ = respond 0x2 .ok [] (pushedState pay s) := pushEffect_of_configured (b := plainBody pay) (h.configured hv) hlen
    _ = .next ((pushedState pay s).answer [0x20000000 + leftFlags s]) := by
      rw [respond_eq, List.length_nil, rspHeader_eq_add _ _ _ (by decide)]
      rfl

/-- After PUSH the newest window frame is the one at the old cursor, which PUSH wrote, and window frame `j` below it is a frame
that PUSH leaves as it was (41_history R122, R123). -/
theorem sampleAt_pushedState {p : Params} (I : InstanceInv p s) (hlen : pay.length = s.chCount.toNat) {c j : Nat}
    (hc : c < s.chCount.toNat) (hj : j < s.tapCount.toNat) :
    sampleAt (pushedState pay s) c j = if j + 1 < s.tapCount.toNat then sampleAt s c (j + 1) else pay.getD c 0 := by
  have hring := I.ringLength
  have hcur : s.cursor.toNat < s.tapCount.toNat := hring ▸ I.cursorInRing
  have hindex := nextCursor_add_mod (s := s) (by rw [hring]; omega) j
  rw [hring] at hindex
  calc sampleAt (pushedState pay s) c j
      = (memoryRead (pushedState pay s).hist
          ((s.cursor.toNat + (j + 1)) % s.tapCount.toNat * s.chCount.toNat + c)).getD 0 := by rw [← hindex]; rfl
    _ = if j + 1 < s.tapCount.toNat then sampleAt s c (j + 1) else pay.getD c 0 := by
      have hnewest := ring_index_eq_cursor_iff hcur hj
      rw [memoryRead_pushedState_frame hlen hc]
      split
      next heq => rw [if_neg (hnewest.mp heq), List.getD_eq_getElem?_getD]
      next hne => rw [if_pos (Classical.not_not.mp (mt hnewest.mpr hne)), sampleAt]

end

end Sys2Proof.Claims

namespace Sys2Proof.Proofs

open Sys2Proof Sys2Proof.Machine Sys2Proof.Claims

/-- Settles O21: `exec_push_of_live` gives the state left, and what its `HIST` reads. -/
theorem pushWritesOneFrame : Obligations.PushWritesOneFrame := by
  intro pay s h hl hlen
  refine ⟨_, exec_push_of_live h hl hlen, memoryRead_pushedState hlen, ?_⟩
  rw [← nextCursor_eq_ite (h.configured hl.1).cursorInRing]
  rfl

/-- Settles O22: the moved cursor makes window frame `j` the frame that was `j + 1`, and the newest the frame pushed. -/
theorem pushShiftsTheWindowByOneFrame : Obligations.PushShiftsTheWindowByOneFrame := by
  intro pay s t h hl hlen ht c hc j hj
  cases (exec_push_of_live h hl hlen).symm.trans ht
  exact sampleAt_pushedState (h.configured hl.1) hlen hc hj

end Sys2Proof.Proofs
end

section
/-! PROOFS of the family 42_phase: the row indices and the fraction of the selector, what ADVANCE and CONSUME answer, and the
phase after whole rounds of them. -/

namespace Sys2Proof.Machine

-- The fields of a binary32 pattern ---------------------------------------------------------------------------------

section
variable {w : Word}

theorem f32Exp_eq (w : Word) : f32Exp w = w.toNat / 2 ^ 23 % 256 := by
  rw [f32Exp, BitVec.extractLsb'_toNat, Nat.shiftRight_eq_div_pow]

theorem f32Frac_eq (w : Word) : f32Frac w = w.toNat % 2 ^ 23 := by
  rw [f32Frac, BitVec.extractLsb'_toNat, Nat.shiftRight_zero]

theorem f32Pack_false_toNat {bits : Nat} (h : bits < 2 ^ 32) : (f32Pack false bits).toNat = bits :=
  Nat.mod_eq_of_lt h

/-- A pattern up to that of 1.0 is finite (43_read_mac R150). -/
theorem f32IsFinite_of_le_one (h : w.toNat ≤ 0x3F800000) : f32IsFinite w = true := by
  rw [f32IsFinite, f32Exp_eq, bne_iff_ne]
  omega

/-- The value of a pattern without the sign bit is its magnitude (43_read_mac R150). -/
theorem f32Units_of_lt (h : w.toNat < 2 ^ 31) : f32Units w = f32Mag w := by
  have hsign : f32Sign w = false := by
    rw [f32Sign, BitVec.msb_eq_decide]
    exact decide_eq_false (by omega)
  rw [f32Units, hsign]
  rfl

/-- A pattern up to that of 1.0 has at most the magnitude `2^149` units: a smaller exponent keeps any significand below it, and
the exponent of 1.0 itself leaves no fraction (43_read_mac R150). -/
theorem f32Mag_le_one (h : w.toNat ≤ 0x3F800000) : f32Mag w ≤ 2 ^ 149 := by
  have hE := f32Exp_eq w
  have hF := f32Frac_eq w
  rw [f32Mag]
  split
  next => omega
  next =>
    by_cases hlt : f32Exp w ≤ 126
    · calc (2 ^ 23 + f32Frac w) * 2 ^ (f32Exp w - 1)
          ≤ 2 ^ 24 * 2 ^ 125 := Nat.mul_le_mul (by omega) (Nat.pow_le_pow_right (by decide) (by omega))
        _ = 2 ^ 149 := by rw [← Nat.pow_add]
    · rw [show f32Exp w = 127 by omega, show f32Frac w = 0 by omega]
      decide

end

-- Rounding ---------------------------------------------------------------------------------------------------------

section
variable {n d : Nat}

/-- Rounding moves a quotient up to the next natural number at most (43_read_mac R152). -/
theorem roundHalfEven_le_of_div_lt {b : Nat} (h : n / d < b) : roundHalfEven n d ≤ b := by
  unfold roundHalfEven
  split
  · omega
  split
  · omega
  · omega

/-- Exactly the fractions up to the tie at one half round to 0 (43_read_mac R152). -/
theorem roundHalfEven_eq_zero_iff (hd : 0 < d) : roundHalfEven n d = 0 ↔ 2 * n ≤ d := by
  by_cases hn : n < d
  · rw [roundHalfEven, Nat.div_eq_of_lt hn, Nat.mod_eq_of_lt hn]
    split
    · omega
    split
    · omega
    · omega
  · have hq : 0 < n / d := Nat.div_pos (Nat.le_of_not_lt hn) hd
    have hround : 0 < roundHalfEven n d := by
      unfold roundHalfEven
      split
      · exact hq
      split
      · omega
      · omega
    omega

/-- The spacing leaves a significand of at most 24 bits (43_read_mac R150). -/
theorem div_two_pow_f32Shift_lt (q : Nat) : q / 2 ^ f32Shift q < 2 ^ 24 := by
  rw [Nat.div_lt_iff_lt_mul (Nat.two_pow_pos _), ← Nat.pow_add, f32Shift]
  split
  next h => exact h
  next h =>
    have hlog : 24 ≤ Nat.log2 q := (Nat.le_log2 (by omega)).mpr (Nat.le_of_not_lt h)
    rw [show 24 + (Nat.log2 q - 23) = Nat.log2 q + 1 by omega]
    exact Nat.lt_log2_self

/-- The spacing of the magnitudes below `2^(k + 24)` units is at most `2^k` units (43_read_mac R150). -/
theorem f32Shift_le {q k : Nat} (h : q < 2 ^ (k + 24)) : f32Shift q ≤ k := by
  rw [f32Shift]
  split
  next => exact Nat.zero_le k
  next hq =>
    have hlog : Nat.log2 q < k + 24 := (Nat.log2_lt (by omega)).mpr h
    omega

/-- Exactly the magnitudes up to half the smallest subnormal round to `+0.0` (43_read_mac R151 to R153). -/
theorem f32RoundBits_eq_zero_iff (hd : 0 < d) : f32RoundBits n d = 0 ↔ 2 * n ≤ d := by
  by_cases hq : n / d < 2 ^ 24
  · have hshift : f32Shift (n / d) = 0 := if_pos hq
    rw [← roundHalfEven_eq_zero_iff hd, f32RoundBits, hshift, Nat.pow_zero, Nat.mul_one]
    omega
  · have hlog : 24 ≤ Nat.log2 (n / d) := (Nat.le_log2 (by omega)).mpr (Nat.le_of_not_lt hq)
    have hshift : f32Shift (n / d) = Nat.log2 (n / d) - 23 := if_neg hq
    have hdn : d ≤ n := (Nat.one_le_div_iff hd).mp (by omega)
    rw [f32RoundBits, hshift]
    omega

/-- A rational below 1 rounds to at most 1.0: its spacing is at most `2^-24` and its significand at most `2^24`
(43_read_mac R153). -/
theorem f32RoundBits_le_one (h : n < d * 2 ^ 149) : f32RoundBits n d ≤ 0x3F800000 := by
  have hshift : f32Shift (n / d) ≤ 125 := f32Shift_le (Nat.div_lt_of_lt_mul h)
  have hround : roundHalfEven n (d * 2 ^ f32Shift (n / d)) ≤ 2 ^ 24 := by
    apply roundHalfEven_le_of_div_lt
    rw [← Nat.div_div_eq_div_mul]
    exact div_two_pow_f32Shift_lt _
  rw [f32RoundBits]
  omega

/-- The pattern of a rational below 1 lies between those of `+0.0` and 1.0 (43_read_mac R153). -/
theorem f32OfRat_toNat (h : n < d) :
    (f32OfRat n d).toNat = f32RoundBits (n * 2 ^ 149) d ∧ (f32OfRat n d).toNat ≤ 0x3F800000 := by
  have hle := f32RoundBits_le_one (Nat.mul_lt_mul_of_pos_right h (Nat.two_pow_pos 149))
  have heq : (f32OfRat n d).toNat = f32RoundBits (n * 2 ^ 149) d := f32Pack_false_toNat (by omega)
  exact ⟨heq, heq ▸ hle⟩

/-- The rational of a 31-bit denominator is `+0.0` only when it is 0: every other one is far above the subnormals
(43_read_mac R153). -/
theorem f32OfRat_eq_zero_iff (h : n < d) (hd : d < 2 ^ 31) : f32OfRat n d = 0 ↔ n = 0 := by
  have hzero : (0 : Word).toNat = 0 := rfl
  rw [← BitVec.toNat_inj, (f32OfRat_toNat h).1, hzero, f32RoundBits_eq_zero_iff (by omega)]
  omega

end

-- What ADVANCE and CONSUME do to a live block ----------------------------------------------------------------------

section
variable {p : Params} {s : State}

/-- The state with another phase; nothing else differs. -/
def State.withPhase (ph : Nat) (s : State) : State := { s with phase := BitVec.ofNat 32 ph }

theorem State.withPhase_phase_toNat {ph : Nat} (h : ph < 2 ^ 32) (s : State) : (s.withPhase ph).phase.toNat = ph :=
  Nat.mod_eq_of_lt h

@[simp] theorem State.withPhase_self (s : State) : s.withPhase s.phase.toNat = s := by
  rw [State.withPhase, BitVec.ofNat_toNat, BitVec.setWidth_eq]

/-- The phase of an aligned block has room for the numerator, and the sum stays in its bound (42_phase R135). -/
theorem InstanceInv.sum_lt (I : InstanceInv p s) (ha : Aligned s) : s.phase.toNat + s.numerator.toNat < 2 ^ 32 := by
  obtain ⟨hnum, hden⟩ := I.reduced_lt
  rw [Aligned] at ha
  omega

/-- The common checks of a command that needs a live instance, on a live block (30_encoding R77). -/
theorem protocolError_of_live {pay : List Word} (hl : Live s) :
    protocolError .liveInstance false pay.length (plainBody pay) s = none := by
  obtain ⟨hv, hf⟩ := hl
  exact protocolError_eq_none_iff.mpr ⟨rfl, .inr rfl, hf, congrArg not hv, rfl⟩

end

end Sys2Proof.Machine

namespace Sys2Proof.Claims

open Sys2Proof Sys2Proof.Machine

section
variable {s : State} {b : CmdBody}

/-- A response with a status and no payload, and nothing else, is a refusal (60_exceptions R181). -/
theorem answer_header_eq_refusal (opc : BitVec 4) (st : Status) (s : State) :
    s.answer [rspHeader opc st s 0] = refusal opc.toNat (statusCode st).toNat s := by
  rw [rspHeader_eq_add opc st s (by decide), Nat.add_zero]
  rfl

/-- The common checks of a command that needs a live instance, with their conditions spelled out (60_exceptions R191). -/
theorem protocolError_liveInstance (n : Nat) (b : CmdBody) (s : State) : protocolError .liveInstance false n b s =
    if b.rsv ≠ 0 ∨ b.arg ≠ 0 then some .errIllegal
    else if s.fault = true then some .errFaulted
    else if s.cfgValid = false then some .errState
    else if b.pay.length ≠ n then some .errLength
    else none := by
  simp only [protocolError, refusedAsFaulted, refusedByState, true_and, ne_eq, reduceCtorEq, not_false_eq_true, decide_true,
    Bool.true_and, Bool.not_eq_true']

/-- A command that needs a live instance, whole: its checks in the order of 60_exceptions R191, then its effect, of which
only what it does to a live block matters. -/
theorem command_liveInstance {opc : BitVec 4} {n : Nat} {eff : Result} {t : State} (heff : Live s → eff = .next t) :
    command opc .liveInstance false n b s eff = .next
      (if b.rsv ≠ 0 ∨ b.arg ≠ 0 then refusal opc.toNat 1 s
      else if s.fault = true then refusal opc.toNat 6 s
      else if s.cfgValid = false then refusal opc.toNat 3 s
      else if b.pay.length ≠ n then refusal opc.toNat 2 s
      else t) := by
  have hcheck := protocolError_liveInstance n b s
  have herror {e : Status} (he : protocolError .liveInstance false n b s = some e) :
      command opc .liveInstance false n b s eff = .next (refusal opc.toNat (statusCode e).toNat s) := by
    rw [command_of_error he, answer_header_eq_refusal]
  split
  next hhead => exact herror (e := .errIllegal) (hcheck.trans (if_pos hhead))
  next hhead =>
  rw [if_neg hhead] at hcheck
  split
  next hf => exact herror (e := .errFaulted) (hcheck.trans (if_pos hf))
  next hf =>
  rw [if_neg hf] at hcheck
  split
  next hv => exact herror (e := .errState) (hcheck.trans (if_pos hv))
  next hv =>
  rw [if_neg hv] at hcheck
  split
  next hlen => exact herror (e := .errLength) (hcheck.trans (if_pos hlen))
  next hlen =>
    rw [if_neg hlen] at hcheck
    exact (command_of_checks hcheck).trans (heff ⟨Bool.of_not_eq_false hv, Bool.of_not_eq_true hf⟩)

-- ADVANCE and CONSUME ----------------------------------------------------------------------------------------------

/-- A live block answers `OK` with a header alone: of the flags `CFG_VALID` is set, and `WRITE_NEEDED` exactly when the
phase has reached the denominator (30_encoding R73, R74). -/
theorem respond_ok_withPhase (opc : BitVec 4) (hl : Live s) {ph : Nat} (hph : ph < 2 ^ 32) :
    respond opc .ok [] (s.withPhase ph) = .next (withRsp
      [if s.denominator.toNat ≤ ph then BitVec.ofNat 32 (opc.toNat * 2 ^ 28) + 0x00050000
        else BitVec.ofNat 32 (opc.toNat * 2 ^ 28) + 0x00010000] (s.withPhase ph)) := by
  obtain ⟨hv, hf⟩ := hl
  have hflags : leftFlags (s.withPhase ph) = if s.denominator.toNat ≤ ph then 0x00050000 else 0x00010000 := by
    show rspFlags s.cfgValid s.fault (s.cfgValid && decide (s.denominator.toNat ≤ (s.withPhase ph).phase.toNat)) = _
    rw [hv, hf, State.withPhase_phase_toNat hph]
    split
    next hwn =>
      rw [decide_eq_true hwn]
      rfl
    next hwn =>
      rw [decide_eq_false hwn]
      rfl
  have hok : (statusCode .ok).toNat = 0 := rfl
  rw [respond_eq, List.length_nil, rspHeader_eq_add _ _ _ (by decide), hok, Nat.zero_mul, Nat.add_zero,
    hflags, apply_ite (BitVec.ofNat 32 (opc.toNat * 2 ^ 28) + ·)]
  rfl

/-- The effect of ADVANCE on a live block, whole (42_phase R132). -/
theorem advanceEffect_of_live (I : InstanceInv P s) (hl : Live s) : advanceEffect s = .next
    (if s.denominator.toNat ≤ s.phase.toNat then refusal 4 5 s
    else withRsp [if s.denominator.toNat ≤ s.phase.toNat + s.numerator.toNat then 0x40050000 else 0x40010000]
      (s.withPhase (s.phase.toNat + s.numerator.toNat))) := by
  rw [advanceEffect_of_configured I]
  simp only [phaseAligned, decide_eq_false_iff_not, Nat.not_lt]
  split
  next => exact congrArg _ (answer_header_eq_refusal 4 .errPhase s)
  next ha =>
    have hsum := I.sum_lt (Nat.lt_of_not_le ha)
    have hphase : { s with phase := s.phase + s.numerator } = s.withPhase (s.phase.toNat + s.numerator.toNat) := by
      rw [State.withPhase, BitVec.ofNat_add, BitVec.ofNat_toNat, BitVec.ofNat_toNat, BitVec.setWidth_eq, BitVec.setWidth_eq]
    rw [hphase]
    exact respond_ok_withPhase 4 hl hsum

/-- The effect of CONSUME on a live block, whole (42_phase R133). -/
theorem consumeEffect_of_live (hl : Live s) : consumeEffect s = .next
    (if s.phase.toNat < s.denominator.toNat then refusal 5 5 s
    else withRsp [if s.denominator.toNat ≤ s.phase.toNat - s.denominator.toNat then 0x50050000 else 0x50010000]
      (s.withPhase (s.phase.toNat - s.denominator.toNat))) := by
  simp only [consumeEffect, phaseAligned, decide_eq_true_iff]
  split
  next => exact congrArg _ (answer_header_eq_refusal 5 .errPhase s)
  next ha =>
    have hphase : s.phase - s.denominator = BitVec.ofNat 32 (s.phase.toNat - s.denominator.toNat) := by
      rw [← BitVec.toNat_sub_of_le (BitVec.le_def.mpr (Nat.le_of_not_lt ha)), BitVec.ofNat_toNat, BitVec.setWidth_eq]
    rw [hphase]
    exact respond_ok_withPhase 5 hl (Nat.lt_of_le_of_lt (Nat.sub_le _ _) s.phase.isLt)

-- Runs of commands that move the phase -----------------------------------------------------------------------------

/-- The commands run from `s`, every one answering `OK` with one word, and at their end the phase is `ph` and nothing else but
the response stream has changed. -/
def RunsToPhase (cmds : List Instr) (s : State) (ph : Nat) : Prop :=
  ∃ hs : List Word, execAll cmds s = .next (withRsp hs (s.withPhase ph)) ∧ hs.length = cmds.length ∧
    ∀ h ∈ hs, h.toNat / 2 ^ 24 % 16 = 0

theorem RunsToPhase.nil (s : State) : RunsToPhase [] s s.phase.toNat := by
  refine ⟨[], ?_, rfl, fun _ h => nomatch h⟩
  rw [State.withPhase_self, withRsp, List.append_nil]
  rfl

theorem RunsToPhase.of_exec {i : Instr} {ph : Nat} {h : Word} (hx : exec i s = .next (withRsp [h] (s.withPhase ph)))
    (hok : h.toNat / 2 ^ 24 % 16 = 0) : RunsToPhase [i] s ph := by
  refine ⟨[h], ?_, rfl, List.forall_mem_singleton.mpr hok⟩
  rw [execAll, hx]
  rfl

/-- Commands given in two parts run through the state between them (20_memory R60). -/
theorem execAll_append {cmds cmds' : List Instr} {s t : State} (h : execAll cmds s = .next t) :
    execAll (cmds ++ cmds') s = execAll cmds' t := by
  induction cmds generalizing s with
  | nil =>
    cases h
    rfl
  | cons i cmds ih =>
    rw [execAll] at h
    rw [List.cons_append, execAll]
    split at h
    next => exact ih h
    next => cases h
    next => cases h

/-- Runs one after the other: the second starts with the phase that the first leaves and its responses waiting. -/
theorem RunsToPhase.append {cmds cmds' : List Instr} {ph ph' : Nat} (hr : RunsToPhase cmds s ph)
    (hr' : ∀ hs, RunsToPhase cmds' (withRsp hs (s.withPhase ph)) ph') : RunsToPhase (cmds ++ cmds') s ph' := by
  obtain ⟨hs, hx, hlen, hok⟩ := hr
  obtain ⟨hs', hx', hlen', hok'⟩ := hr' hs
  refine ⟨hs ++ hs', ?_, by rw [List.length_append, List.length_append, hlen, hlen'],
    List.forall_mem_append.mpr ⟨hok, hok'⟩⟩
  rw [execAll_append hx, hx', withRsp, withRsp, withRsp, ← List.append_assoc]
  rfl

/-- ADVANCE of a live, aligned block (42_phase R132). -/
theorem runsToPhase_advance (h : Inv P s) (hl : Live s) (ha : Aligned s) :
    RunsToPhase [.advance (plainBody [])] s (s.phase.toNat + s.numerator.toNat) := by
  have heff := advanceEffect_of_live (h.configured hl.1) hl
  rw [if_neg (Nat.not_le.mpr ha)] at heff
  exact .of_exec ((command_of_checks (protocolError_of_live (pay := []) hl)).trans heff) (by split <;> rfl)

/-- CONSUME of a live block whose phase has reached the denominator (42_phase R133). -/
theorem runsToPhase_consume {ph : Nat} (hl : Live s) (hph : s.phase.toNat = ph + s.denominator.toNat) :
    RunsToPhase [.consume (plainBody [])] s ph := by
  have heff := consumeEffect_of_live hl
  rw [if_neg (by omega), show s.phase.toNat - s.denominator.toNat = ph by omega] at heff
  exact .of_exec ((command_of_checks (protocolError_of_live (pay := []) hl)).trans heff) (by split <;> rfl)

/-- As many CONSUMEs as the phase has room for (42_phase R134). -/
theorem runsToPhase_consumes {n ph : Nat} (hl : Live s) (hph : s.phase.toNat = ph + n * s.denominator.toNat) :
    RunsToPhase (List.replicate n (.consume (plainBody []))) s ph := by
  induction n generalizing s with
  | zero =>
    rw [Nat.zero_mul, Nat.add_zero] at hph
    exact hph ▸ .nil s
  | succ n ih =>
    rw [Nat.succ_mul, ← Nat.add_assoc] at hph
    have hlt := s.phase.isLt
    exact (runsToPhase_consume hl hph).append (cmds' := List.replicate n _)
      (fun hs => ih hl (State.withPhase_phase_toNat (by omega) s))

/-- One round: ADVANCE, and a CONSUME for every frame then owed (42_phase R134, R136). -/
theorem runsToPhase_round (h : Inv P s) (hl : Live s) (ha : Aligned s) :
    RunsToPhase (.advance (plainBody []) ::
        List.replicate ((s.phase.toNat + s.numerator.toNat) / s.denominator.toNat) (.consume (plainBody [])))
      s ((s.phase.toNat + s.numerator.toNat) % s.denominator.toNat) :=
  (runsToPhase_advance h hl ha).append (fun hs => runsToPhase_consumes (s := withRsp hs (s.withPhase _)) hl
    ((State.withPhase_phase_toNat ((h.configured hl.1).sum_lt ha) s).trans (Nat.mod_add_div' _ _).symm))

/-- The frames owed after one more advance, by the residue of the phase before it (42_phase R136). -/
theorem div_add_sub_div (x num : Nat) {den : Nat} (hden : 0 < den) : (x + num) / den - x / den = (x % den + num) / den := by
  have hsplit : x + num = x % den + num + den * (x / den) := by
    have := Nat.mod_add_div x den
    omega
  rw [hsplit, Nat.add_mul_div_left _ _ hden, Nat.add_sub_cancel]

/-- Round number `k` from the phase that the rounds before it leave (42_phase R136). -/
theorem runsToPhase_phaseRound {p0 k : Nat} (h : Inv P s) (hl : Live s)
    (hph : s.phase.toNat = (p0 + k * s.numerator.toNat) % s.denominator.toNat) :
    RunsToPhase (phaseRound s.numerator.toNat s.denominator.toNat p0 k) s
      ((p0 + (k + 1) * s.numerator.toNat) % s.denominator.toNat) := by
  have hden := (h.configured hl.1).denominator_pos
  have ha : Aligned s := by
    rw [Aligned, hph]
    exact Nat.mod_lt _ hden
  have hround := runsToPhase_round h hl ha
  rwa [hph, ← div_add_sub_div _ _ hden, Nat.mod_add_mod, Nat.add_assoc, ← Nat.succ_mul] at hround

/-- All `k` rounds from an aligned phase (42_phase R136). -/
theorem runsToPhase_rounds (h : Inv P s) (hl : Live s) (ha : Aligned s) (k : Nat) :
    RunsToPhase ((List.range k).flatMap (phaseRound s.numerator.toNat s.denominator.toNat s.phase.toNat)) s
      ((s.phase.toNat + k * s.numerator.toNat) % s.denominator.toNat) := by
  induction k with
  | zero =>
    rw [Nat.zero_mul, Nat.add_zero, Nat.mod_eq_of_lt ha]
    exact .nil s
  | succ k ih =>
    rw [List.range_succ, List.flatMap_append, List.flatMap_singleton]
    refine ih.append (fun hs => ?_)
    have hlt := Nat.mod_lt (s.phase.toNat + k * s.numerator.toNat) (h.configured hl.1).denominator_pos
    have hph := State.withPhase_phase_toNat (Nat.lt_trans hlt s.denominator.isLt) s
    exact runsToPhase_phaseRound ((h.withPhase hl (Nat.lt_of_le_of_lt (Nat.le_of_eq hph) (Nat.lt_add_right _ hlt))).answer hs) hl hph

/-- The rounds hold one ADVANCE each, and together one CONSUME for every frame owed (42_phase R136). -/
theorem length_rounds {num den p0 : Nat} (hp0 : p0 < den) (k : Nat) :
    ((List.range k).flatMap (phaseRound num den p0)).length = k + (p0 + k * num) / den := by
  induction k with
  | zero =>
    rw [Nat.zero_mul, Nat.add_zero, Nat.div_eq_of_lt hp0]
    rfl
  | succ k ih =>
    have hmono : (p0 + k * num) / den ≤ (p0 + (k + 1) * num) / den :=
      Nat.div_le_div_right (Nat.add_le_add_left (Nat.mul_le_mul_right _ (Nat.le_succ k)) _)
    rw [List.range_succ, List.flatMap_append, List.flatMap_singleton, List.length_append, ih, phaseRound, List.length_cons,
      List.length_replicate]
    omega

end

end Sys2Proof.Claims

namespace Sys2Proof.Proofs

open Sys2Proof Sys2Proof.Machine Sys2Proof.Claims

/-- Settles O31: READ's own comparison. -/
theorem guardIndexLeavesTheTableExactlyWhenUnaligned : Obligations.GuardIndexLeavesTheTableExactlyWhenUnaligned :=
  fun _ hN hD => numRows_le_indexHigh_iff hN hD

/-- Settles O32: the exact fraction is below 1 with a 31-bit denominator, so it rounds to a pattern from that of `+0.0`, for 0
alone, up to that of 1.0. -/
theorem fractionIsZeroExactlyOnARow : Obligations.FractionIsZeroExactlyOnARow := by
  intro s h hv
  have I := h.configured hv
  have hrem : phaseRem s < s.denominator.toNat := Nat.mod_lt _ I.denominator_pos
  obtain ⟨-, hle⟩ := f32OfRat_toNat hrem
  have hunits : f32Units (fraction s) = f32Mag (fraction s) := f32Units_of_lt (Nat.lt_of_le_of_lt hle (by decide))
  refine ⟨f32OfRat_eq_zero_iff hrem I.reduced_lt.2, f32IsFinite_of_le_one hle, ?_, ?_⟩
  · rw [hunits]
    exact Int.natCast_nonneg _
  · rw [hunits]
    exact_mod_cast f32Mag_le_one hle

/-- Settles O33: the rounds run to the residue (`runsToPhase_rounds`), with one response word for each of their commands. -/
theorem phaseAfterRoundsIsTheResidue : Obligations.PhaseAfterRoundsIsTheResidue := by
  intro s k h hl ha
  obtain ⟨hs, hx, hlen, hok⟩ := runsToPhase_rounds h hl ha k
  have hlt := Nat.mod_lt (s.phase.toNat + k * s.numerator.toNat) (h.configured hl.1).denominator_pos
  refine ⟨_, hx, State.withPhase_phase_toNat (Nat.lt_trans hlt s.denominator.isLt) s, rfl, ?_, ?_⟩
  · show (s.rsp ++ hs).length = _
    rw [List.length_append, hlen, length_rounds ha, Nat.add_assoc]
  · show ∀ h ∈ (s.rsp ++ hs).drop s.rsp.length, _
    rwa [List.drop_left]

/-- Settles O29: past the common checks `advanceEffect_of_live` says it all. -/
theorem advanceFollowsItsRule : Obligations.AdvanceFollowsItsRule :=
  fun _ _ h => command_liveInstance (fun hl => advanceEffect_of_live (h.configured hl.1) hl)

/-- Settles O30: past the common checks `consumeEffect_of_live` says it all. -/
theorem consumeFollowsItsRule : Obligations.ConsumeFollowsItsRule :=
  fun _ _ => command_liveInstance consumeEffect_of_live

end Sys2Proof.Proofs
end

section
/-! PROOFS of the family 43_read_mac: the laws of the rounded binary32 operations, and the frame that READ answers. -/

namespace Sys2Proof.Machine

-- A pattern as its sign and its bits 30:0 --------------------------------------------------------------------------

/-- Bits 30:0 of a pattern: exponent field and fraction field side by side (43_read_mac R150). -/
def f32Bits (w : Word) : Nat := w.toNat % 2 ^ 31

section
variable {a b w : Word}

theorem f32Bits_lt (w : Word) : f32Bits w < 2 ^ 31 := Nat.mod_lt _ (Nat.two_pow_pos 31)

theorem f32Exp_eq_bits (w : Word) : f32Exp w = f32Bits w / 2 ^ 23 := by
  rw [f32Exp_eq, f32Bits]
  omega

theorem f32Frac_eq_bits (w : Word) : f32Frac w = f32Bits w % 2 ^ 23 := by
  rw [f32Frac_eq, f32Bits]
  omega

theorem f32Sign_eq (w : Word) : f32Sign w = decide (2 ^ 31 ≤ w.toNat) := by
  rw [f32Sign, BitVec.msb_eq_decide]

/-- A pattern is its sign and its bits 30:0. -/
theorem f32_ext (hs : f32Sign a = f32Sign b) (hb : f32Bits a = f32Bits b) : a = b := by
  have ha := a.isLt
  have hb' := b.isLt
  rw [f32Sign_eq, f32Sign_eq, decide_eq_decide] at hs
  rw [f32Bits, f32Bits] at hb
  apply BitVec.eq_of_toNat_eq
  omega

theorem f32IsFinite_iff : f32IsFinite w = true ↔ f32Bits w < 0x7F800000 := by
  have := f32Bits_lt w
  rw [f32IsFinite, bne_iff_ne, f32Exp_eq_bits]
  omega

theorem f32IsInf_iff : f32IsInf w = true ↔ f32Bits w = 0x7F800000 := by
  have := f32Bits_lt w
  rw [f32IsInf, Bool.and_eq_true, beq_iff_eq, beq_iff_eq, f32Exp_eq_bits, f32Frac_eq_bits]
  omega

theorem f32IsNan_iff : f32IsNan w = true ↔ 0x7F800000 < f32Bits w := by
  have := f32Bits_lt w
  rw [f32IsNan, Bool.and_eq_true, beq_iff_eq, bne_iff_ne, f32Exp_eq_bits, f32Frac_eq_bits]
  omega

theorem f32IsZero_iff : f32IsZero w = true ↔ f32Bits w = 0 := by
  rw [f32IsZero, Bool.and_eq_true, beq_iff_eq, beq_iff_eq, f32Exp_eq_bits, f32Frac_eq_bits]
  omega

theorem f32IsNan_of_finite (h : f32IsFinite w = true) : f32IsNan w = false := by
  rw [f32IsFinite_iff] at h
  rw [← Bool.not_eq_true, f32IsNan_iff]
  omega

theorem f32IsInf_of_finite (h : f32IsFinite w = true) : f32IsInf w = false := by
  rw [f32IsFinite_iff] at h
  rw [← Bool.not_eq_true, f32IsInf_iff]
  omega

theorem f32IsNan_of_inf (h : f32IsInf w = true) : f32IsNan w = false := by
  rw [f32IsInf_iff] at h
  rw [← Bool.not_eq_true, f32IsNan_iff]
  omega

theorem f32IsZero_of_inf (h : f32IsInf w = true) : f32IsZero w = false := by
  rw [f32IsInf_iff] at h
  rw [← Bool.not_eq_true, f32IsZero_iff]
  omega

theorem f32IsFinite_of_zero (h : f32IsZero w = true) : f32IsFinite w = true := by
  rw [f32IsZero_iff] at h
  rw [f32IsFinite_iff]
  omega

/-- A pattern that is not finite is an infinity or a NaN (43_read_mac R150). -/
theorem f32_inf_or_nan (h : f32IsFinite w = false) : f32IsInf w = true ∨ f32IsNan w = true := by
  rw [← Bool.not_eq_true, f32IsFinite_iff] at h
  rw [f32IsInf_iff, f32IsNan_iff]
  omega

-- The pattern that is put together from a sign and bits 30:0

variable {neg : Bool} {bits : Nat}

theorem f32Pack_toNat (h : bits < 2 ^ 31) : (f32Pack neg bits).toNat = bits + if neg then 2 ^ 31 else 0 := by
  refine Nat.mod_eq_of_lt ?_
  split <;> omega

theorem f32Bits_pack (h : bits < 2 ^ 31) : f32Bits (f32Pack neg bits) = bits := by
  rw [f32Bits, f32Pack_toNat h]
  split <;> omega

theorem f32Sign_pack (h : bits < 2 ^ 31) : f32Sign (f32Pack neg bits) = neg := by
  rw [f32Sign_eq, f32Pack_toNat h]
  cases neg with
  | false => exact decide_eq_false (by simp only [Bool.false_eq_true, if_false]; omega)
  | true => exact decide_eq_true (Nat.le_add_left _ _)

theorem f32Pack_sign_bits (w : Word) : f32Pack (f32Sign w) (f32Bits w) = w :=
  f32_ext (f32Sign_pack (f32Bits_lt w)) (f32Bits_pack (f32Bits_lt w))

theorem ite_bne {s t : Bool} (u v : Word) : (if s != t then u else v) = if s = t then v else u := by
  cases s <;> cases t <;> rfl

/-- An infinity is the one of its sign (43_read_mac R150). -/
theorem f32Inf_sign (h : f32IsInf w = true) : f32Inf (f32Sign w) = w := by
  rw [f32Inf, ← f32IsInf_iff.mp h, f32Pack_sign_bits]

theorem f32Inf_eq_ite (neg : Bool) : f32Inf neg = if neg then 0xFF800000 else 0x7F800000 := by
  cases neg with
  | false => rfl
  | true => rfl

theorem f32Pack_zero_eq_ite (neg : Bool) : f32Pack neg 0 = if neg then 0x80000000 else 0x00000000 := by
  cases neg with
  | false => rfl
  | true => rfl

-- The negation has the other sign and the same bits 30:0 (43_read_mac R152).

@[simp] theorem f32Sign_neg (w : Word) : f32Sign (f32Neg w) = !f32Sign w := by
  have hmsb : (0x80000000 : Word).msb = true := by decide
  rw [f32Sign, f32Neg, BitVec.msb_xor, hmsb, Bool.xor_true, f32Sign]

@[simp] theorem f32Bits_neg (w : Word) : f32Bits (f32Neg w) = f32Bits w := by
  have hbits : (0x80000000 : Word).toNat % 2 ^ 31 = 0 := by decide
  rw [f32Bits, f32Neg, BitVec.toNat_xor, Nat.xor_mod_two_pow, hbits, Nat.xor_zero, f32Bits]

theorem f32IsFinite_neg (w : Word) : f32IsFinite (f32Neg w) = f32IsFinite w := by
  rw [Bool.eq_iff_iff, f32IsFinite_iff, f32IsFinite_iff, f32Bits_neg]

theorem f32IsInf_neg (w : Word) : f32IsInf (f32Neg w) = f32IsInf w := by
  rw [Bool.eq_iff_iff, f32IsInf_iff, f32IsInf_iff, f32Bits_neg]

theorem f32IsNan_neg (w : Word) : f32IsNan (f32Neg w) = f32IsNan w := by
  rw [Bool.eq_iff_iff, f32IsNan_iff, f32IsNan_iff, f32Bits_neg]

/-- The other infinity (43_read_mac R152). -/
theorem f32Neg_of_inf (h : f32IsInf w = true) : f32Neg w = if w = 0x7F800000 then 0xFF800000 else 0x7F800000 := by
  rw [← f32Inf_sign h]
  cases f32Sign w with
  | false => decide
  | true => decide

theorem eq_negZero_iff : w = 0x80000000 ↔ f32Sign w = true ∧ f32IsZero w = true := by
  constructor
  · rintro rfl
    decide
  · rintro ⟨hs, hz⟩
    exact f32_ext hs (f32IsZero_iff.mp hz)

end

-- Magnitudes -------------------------------------------------------------------------------------------------------

/-- The magnitude of the pattern with bits 30:0 `b`, in units of `2^-149`, with no bound on the exponent (43_read_mac R150). -/
def bitsMag (b : Nat) : Nat :=
  if b / 2 ^ 23 = 0 then b % 2 ^ 23 else (2 ^ 23 + b % 2 ^ 23) * 2 ^ (b / 2 ^ 23 - 1)

theorem f32Mag_eq_bitsMag (w : Word) : f32Mag w = bitsMag (f32Bits w) := by
  rw [f32Mag, bitsMag, f32Exp_eq_bits, f32Frac_eq_bits]

/-- A significand `m` at spacing `2^k` has the bits `k * 2^23 + m`, rounded up to `2^24` included (43_read_mac R150). -/
theorem bitsMag_eq {k m : Nat} (hm : m ≤ 2 ^ 24) (hk : k = 0 ∨ 2 ^ 23 ≤ m) : bitsMag (k * 2 ^ 23 + m) = m * 2 ^ k := by
  rw [bitsMag]
  by_cases hsub : m < 2 ^ 23
  · obtain rfl : k = 0 := by omega
    rw [if_pos (by omega)]
    omega
  rw [if_neg (by omega)]
  by_cases hcarry : m = 2 ^ 24
  · rw [show (k * 2 ^ 23 + m) / 2 ^ 23 - 1 = k + 1 by omega, show (k * 2 ^ 23 + m) % 2 ^ 23 = 0 by omega, hcarry,
      Nat.pow_succ]
    omega
  · rw [show (k * 2 ^ 23 + m) / 2 ^ 23 - 1 = k by omega, show 2 ^ 23 + (k * 2 ^ 23 + m) % 2 ^ 23 = m by omega]

/-- All bits are those of a significand of at most 24 bits at a spacing, and of exactly 24 bits above the lowest spacing. -/
theorem exists_significand (b : Nat) : ∃ k m, b = k * 2 ^ 23 + m ∧ m < 2 ^ 24 ∧ (k = 0 ∨ 2 ^ 23 ≤ m) := by
  by_cases h : b < 2 ^ 23
  · exact ⟨0, b, by omega, by omega, .inl rfl⟩
  · exact ⟨b / 2 ^ 23 - 1, 2 ^ 23 + b % 2 ^ 23, by omega, by omega, .inr (by omega)⟩

/-- The next pattern has the next significand at the same spacing. -/
theorem bitsMag_lt_succ (b : Nat) : bitsMag b < bitsMag (b + 1) := by
  obtain ⟨k, m, rfl, hm, hk⟩ := exists_significand b
  rw [bitsMag_eq (by omega) hk, Nat.add_assoc, bitsMag_eq hm (by omega)]
  exact Nat.mul_lt_mul_of_pos_right (Nat.lt_succ_self m) (Nat.two_pow_pos k)

/-- Magnitudes are ordered as bits are. -/
theorem bitsMag_lt {b c : Nat} (h : b < c) : bitsMag b < bitsMag c := by
  induction h with
  | refl => exact bitsMag_lt_succ b
  | step _ ih => exact Nat.lt_trans ih (bitsMag_lt_succ _)

theorem bitsMag_le {b c : Nat} (h : b ≤ c) : bitsMag b ≤ bitsMag c := by
  rcases Nat.eq_or_lt_of_le h with rfl | hlt
  · exact Nat.le_refl _
  · exact Nat.le_of_lt (bitsMag_lt hlt)

theorem bitsMag_inj {b c : Nat} (h : bitsMag b = bitsMag c) : b = c := by
  rcases Nat.lt_trichotomy b c with hlt | heq | hlt
  · exact absurd h (Nat.ne_of_lt (bitsMag_lt hlt))
  · exact heq
  · exact absurd h (Nat.ne_of_gt (bitsMag_lt hlt))

@[simp] theorem bitsMag_zero : bitsMag 0 = 0 := rfl

theorem bitsMag_eq_zero_iff {b : Nat} : bitsMag b = 0 ↔ b = 0 := by
  constructor
  · exact fun h => bitsMag_inj (h.trans bitsMag_zero.symm)
  · rintro rfl
    rfl

-- The nearest magnitude --------------------------------------------------------------------------------------------

/-- How far the magnitude of the bits `b` is from `n / d` units, times `d`. -/
def bitsGap (n d b : Nat) : Nat := ((n : Int) - bitsMag b * d).natAbs

/-- The bits to which `f32RoundBits` rounds, before it answers an infinity for a magnitude beyond the largest. -/
def unboundedBits (n d : Nat) : Nat := f32Shift (n / d) * 2 ^ 23 + roundHalfEven n (d * 2 ^ f32Shift (n / d))

theorem f32RoundBits_eq_min (n d : Nat) : f32RoundBits n d = min (unboundedBits n d) 0x7F800000 := rfl

section
variable {n d : Nat}

/-- The number rounded to is at most half the spacing away, and even at exactly half (43_read_mac R151). -/
theorem roundHalfEven_gap (hd : 0 < d) : 2 * ((n : Int) - (roundHalfEven n d * d : Nat)).natAbs ≤ d ∧
    (2 * ((n : Int) - (roundHalfEven n d * d : Nat)).natAbs = d → roundHalfEven n d % 2 = 0) := by
  have hn := Nat.div_add_mod' n d
  have hr := Nat.mod_lt n hd
  have hup : (n / d + 1) * d = n / d * d + d := Nat.succ_mul _ _
  unfold roundHalfEven
  split
  · omega
  split
  · omega
  · rcases Nat.mod_two_eq_zero_or_one (n / d) with h | h
    · rw [h, Nat.add_zero]
      omega
    · rw [h]
      omega

/-- No multiple of the spacing is nearer than the one rounded to, and on a tie that one is even (43_read_mac R151). -/
theorem roundHalfEven_isNearest (hd : 0 < d) (j : Nat) :
    ((n : Int) - (roundHalfEven n d * d : Nat)).natAbs ≤ ((n : Int) - (j * d : Nat)).natAbs ∧
    (((n : Int) - (roundHalfEven n d * d : Nat)).natAbs = ((n : Int) - (j * d : Nat)).natAbs →
      j = roundHalfEven n d ∨ roundHalfEven n d % 2 = 0) := by
  obtain ⟨hhalf, heven⟩ := roundHalfEven_gap (n := n) hd
  generalize roundHalfEven n d = m at hhalf heven ⊢
  rcases Nat.lt_trichotomy j m with h | rfl | h
  · have := Nat.mul_le_mul_right d (Nat.succ_le_of_lt h)
    rw [Nat.succ_mul] at this
    omega
  · exact ⟨Nat.le_refl _, fun _ => .inl rfl⟩
  · have := Nat.mul_le_mul_right d (Nat.succ_le_of_lt h)
    rw [Nat.succ_mul] at this
    omega

theorem div_le_roundHalfEven (n d : Nat) : n / d ≤ roundHalfEven n d := by
  unfold roundHalfEven
  split
  · omega
  split
  · omega
  · omega

/-- Above the lowest spacing the significand has 24 bits (43_read_mac R150). -/
theorem two_pow_f32Shift_le (q : Nat) : f32Shift q = 0 ∨ 2 ^ 23 * 2 ^ f32Shift q ≤ q := by
  rw [f32Shift]
  split
  next => exact .inl rfl
  next h =>
    have hlog : 24 ≤ Nat.log2 q := (Nat.le_log2 (by omega)).mpr (Nat.le_of_not_lt h)
    rw [← Nat.pow_add, show 23 + (Nat.log2 q - 23) = Nat.log2 q by omega]
    exact .inr (Nat.log2_self_le (by omega))

/-- The significand rounded to fits its spacing, so the bits rounded to have its magnitude (43_read_mac R151). -/
theorem bitsMag_unboundedBits (n d : Nat) :
    bitsMag (unboundedBits n d) = roundHalfEven n (d * 2 ^ f32Shift (n / d)) * 2 ^ f32Shift (n / d) := by
  have hdiv : n / (d * 2 ^ f32Shift (n / d)) = n / d / 2 ^ f32Shift (n / d) := (Nat.div_div_eq_div_mul ..).symm
  refine bitsMag_eq (roundHalfEven_le_of_div_lt (hdiv ▸ div_two_pow_f32Shift_lt _)) ?_
  refine (two_pow_f32Shift_le (n / d)).imp_right (fun h => Nat.le_trans ?_ (div_le_roundHalfEven _ _))
  rw [hdiv]
  exact (Nat.le_div_iff_mul_le (Nat.two_pow_pos _)).mpr h

/-- The gap of a multiple of the spacing `2^k`, as the gap of a multiple of `d * 2^k`. -/
theorem bitsGap_of_multiple {b j k : Nat} (h : bitsMag b = j * 2 ^ k) :
    bitsGap n d b = ((n : Int) - (j * (d * 2 ^ k) : Nat)).natAbs := by
  rw [bitsGap, h, ← Int.natCast_mul, Nat.mul_assoc, Nat.mul_comm (2 ^ k)]

/-- The magnitudes of a narrower spacing are below the least significand of 24 bits at this spacing (43_read_mac R150). -/
theorem significand_lt_of_narrower {k k' m : Nat} (hk : k' < k) (hm : m < 2 ^ 24) : m * 2 ^ k' < 2 ^ 23 * 2 ^ k := by
  calc m * 2 ^ k' < 2 ^ 24 * 2 ^ k' := Nat.mul_lt_mul_of_pos_right hm (Nat.two_pow_pos _)
    _ = 2 ^ 23 * 2 ^ (k' + 1) := by rw [Nat.pow_succ 2 k']; omega
    _ ≤ 2 ^ 23 * 2 ^ k := Nat.mul_le_mul_left _ (Nat.pow_le_pow_right (by decide) hk)

/-- No magnitude is nearer to `n / d` than the one rounded to, and on a tie with another magnitude its fraction is even: a
magnitude at this spacing or a wider one is a multiple of the spacing, and one at a narrower spacing is below the least
significand of this spacing, which is itself at most `n / d` (43_read_mac R151). -/
theorem unboundedBits_isNearest (hd : 0 < d) (b : Nat) : bitsGap n d (unboundedBits n d) ≤ bitsGap n d b ∧
    (bitsGap n d (unboundedBits n d) = bitsGap n d b → b = unboundedBits n d ∨ unboundedBits n d % 2 = 0) := by
  have hmag := bitsMag_unboundedBits n d
  have hinj := bitsMag_inj (b := b) (c := unboundedBits n d)
  have hparity : unboundedBits n d % 2 = roundHalfEven n (d * 2 ^ f32Shift (n / d)) % 2 := by
    rw [unboundedBits]
    omega
  have hleast := two_pow_f32Shift_le (n / d)
  have hnear := roundHalfEven_isNearest (n := n) (Nat.mul_pos hd (Nat.two_pow_pos (f32Shift (n / d))))
  rw [hparity, bitsGap_of_multiple hmag]
  generalize f32Shift (n / d) = k at *
  obtain ⟨k', m, rfl, hm, hk'⟩ := exists_significand b
  have hmag' := bitsMag_eq (Nat.le_of_lt hm) hk'
  by_cases hle : k ≤ k'
  · have hmul : bitsMag (k' * 2 ^ 23 + m) = m * 2 ^ (k' - k) * 2 ^ k := by
      rw [hmag', Nat.mul_assoc, ← Nat.pow_add, Nat.sub_add_cancel hle]
    rw [bitsGap_of_multiple hmul]
    refine (hnear _).imp_right (fun htie heq => (htie heq).imp_left (fun hj => hinj ?_))
    rw [hmag, hmul, hj]
  · have hbelow := Nat.mul_lt_mul_of_pos_right (significand_lt_of_narrower (Nat.lt_of_not_le hle) hm) hd
    have habove := (Nat.le_div_iff_mul_le hd).mp (hleast.resolve_left (by omega))
    obtain ⟨hnearLeast, -⟩ := hnear (2 ^ 23)
    rw [Nat.mul_comm d (2 ^ k), ← Nat.mul_assoc (2 ^ 23)] at hnearLeast
    rw [bitsGap, hmag', ← Int.natCast_mul, Nat.mul_comm d (2 ^ k)]
    omega

/-- A magnitude is rounded to itself (43_read_mac R155 `EXACT`). -/
theorem unboundedBits_bitsMag (hd : 0 < d) (b : Nat) : unboundedBits (bitsMag b * d) d = b := by
  obtain ⟨hle, -⟩ := unboundedBits_isNearest (n := bitsMag b * d) hd b
  have hself : bitsGap (bitsMag b * d) d b = 0 := by
    rw [bitsGap, Int.natCast_mul, Int.sub_self, Int.natAbs_zero]
  rw [hself, Nat.le_zero, bitsGap, Int.natAbs_eq_zero, Int.sub_eq_zero] at hle
  have hmul : bitsMag b * d = bitsMag (unboundedBits (bitsMag b * d) d) * d := by exact_mod_cast hle
  exact bitsMag_inj (Nat.eq_of_mul_eq_mul_right hd hmul.symm)

/-- A rounded magnitude is not below a magnitude that the exact one reaches (43_read_mac R151). -/
theorem le_unboundedBits {k : Nat} (hd : 0 < d) (h : bitsMag k * d ≤ n) : k ≤ unboundedBits n d := by
  refine Nat.le_of_not_lt (fun hlt => ?_)
  have hmag := Nat.mul_lt_mul_of_pos_right (bitsMag_lt hlt) hd
  obtain ⟨hnear, -⟩ := unboundedBits_isNearest (n := n) hd k
  rw [bitsGap, bitsGap, ← Int.natCast_mul, ← Int.natCast_mul] at hnear
  omega

/-- A magnitude rounds to a number below `2^128` exactly below the middle between that and the largest finite number, whose
fraction is odd (43_read_mac R155 `FINITE_CLOSED`; entry 9). -/
theorem unboundedBits_lt_iff (hd : 0 < d) : unboundedBits n d < 0x7F800000 ↔ n < (2 ^ 128 - 2 ^ 103) * 2 ^ 149 * d := by
  have hlargest : bitsMag 0x7F7FFFFF = (2 ^ 24 - 1) * 2 ^ 253 := by decide
  have hbeyond : bitsMag 0x7F800000 = 2 ^ 23 * 2 ^ 254 := by decide
  have hnear := unboundedBits_isNearest (n := n) hd
  have hnearLargest := hnear 0x7F7FFFFF
  have hnearBeyond := hnear 0x7F800000
  simp only [bitsGap, hlargest, hbeyond] at hnearLargest hnearBeyond
  have hcast : ((bitsMag (unboundedBits n d) * d : Nat) : Int) = bitsMag (unboundedBits n d) * d := Int.natCast_mul _ _
  constructor
  · intro hlt
    have hmag := Nat.mul_le_mul_right d (bitsMag_le (Nat.le_of_lt_succ hlt))
    rw [hlargest] at hmag
    refine Nat.lt_of_not_le (fun hover => ?_)
    have hodd : unboundedBits n d ≠ 0x7F7FFFFF := by omega
    have hmag' := Nat.mul_lt_mul_of_pos_right (bitsMag_lt (show unboundedBits n d < 0x7F7FFFFF by omega)) hd
    rw [hlargest] at hmag'
    omega
  · intro hlt
    refine Nat.lt_of_not_le (fun hover => ?_)
    have hmag := Nat.mul_le_mul_right d (bitsMag_le hover)
    rw [hbeyond] at hmag
    omega

theorem f32RoundBits_le (n d : Nat) : f32RoundBits n d ≤ 0x7F800000 := Nat.min_le_right _ _

theorem f32RoundBits_lt_two_pow (n d : Nat) : f32RoundBits n d < 2 ^ 31 :=
  Nat.lt_of_le_of_lt (f32RoundBits_le n d) (by decide)

theorem f32RoundBits_of_lt (h : f32RoundBits n d < 0x7F800000) : f32RoundBits n d = unboundedBits n d := by
  rw [f32RoundBits_eq_min] at h ⊢
  omega

theorem f32RoundBits_lt_iff (hd : 0 < d) : f32RoundBits n d < 0x7F800000 ↔ n < (2 ^ 128 - 2 ^ 103) * 2 ^ 149 * d := by
  rw [← unboundedBits_lt_iff hd, f32RoundBits_eq_min]
  omega

end

-- Signed values ----------------------------------------------------------------------------------------------------

/-- The number with a sign and a magnitude. -/
def signed (neg : Bool) (n : Nat) : Int := if neg then -(n : Int) else n

section
variable {neg : Bool} {n d : Nat} {w x : Word}

@[simp] theorem signed_false (n : Nat) : signed false n = n := rfl

@[simp] theorem signed_true (n : Nat) : signed true n = -(n : Int) := rfl

@[simp] theorem signed_zero (neg : Bool) : signed neg 0 = 0 := by
  cases neg with
  | false => rfl
  | true => rfl

@[simp] theorem natAbs_signed (neg : Bool) (n : Nat) : (signed neg n).natAbs = n := by
  cases neg with
  | false => exact Int.natAbs_natCast n
  | true => exact (Int.natAbs_neg _).trans (Int.natAbs_natCast n)

theorem signed_not (neg : Bool) (n : Nat) : signed (!neg) n = -signed neg n := by
  cases neg with
  | false => rfl
  | true => exact (Int.neg_neg _).symm

theorem signed_mul_natCast (neg : Bool) (m d : Nat) : signed neg m * d = signed neg (m * d) := by
  cases neg with
  | false => rfl
  | true => exact Int.neg_mul _ _

/-- Signs multiply as the exclusive-or (43_read_mac R151). -/
theorem signed_mul_signed (s t : Bool) (m n : Nat) : signed s m * signed t n = signed (s != t) (m * n) := by
  cases t with
  | false => rw [signed_false, signed_mul_natCast, Bool.bne_false]
  | true => rw [signed_true, Int.mul_neg, signed_mul_natCast, Bool.bne_true, signed_not]

theorem f32Units_eq_signed (w : Word) : f32Units w = signed (f32Sign w) (bitsMag (f32Bits w)) := by
  rw [← f32Mag_eq_bitsMag]
  rfl

theorem f32Units_pack {bits : Nat} (h : bits < 2 ^ 31) : f32Units (f32Pack neg bits) = signed neg (bitsMag bits) := by
  rw [f32Units_eq_signed, f32Sign_pack h, f32Bits_pack h]

theorem f32Units_eq_zero_iff : f32Units w = 0 ↔ f32IsZero w = true := by
  rw [f32Units_eq_signed, ← Int.natAbs_eq_zero, natAbs_signed, bitsMag_eq_zero_iff, f32IsZero_iff]

theorem f32Units_neg (w : Word) : f32Units (f32Neg w) = -f32Units w := by
  rw [f32Units_eq_signed, f32Units_eq_signed, f32Sign_neg, f32Bits_neg, signed_not]

theorem f32Units_nonpos (h : f32Sign w = true) : f32Units w ≤ 0 := by
  rw [f32Units_eq_signed, h, signed_true]
  omega

/-- Equal numbers other than zero have the same sign and the same magnitude. -/
theorem signed_inj {s : Bool} {m : Nat} (hn : 0 < n) (h : signed neg n = signed s m) : neg = s ∧ n = m := by
  have hnm : n = m := by rw [← natAbs_signed neg n, h, natAbs_signed]
  subst hnm
  refine ⟨?_, rfl⟩
  refine Decidable.byContradiction (fun hne => ?_)
  have habs := natAbs_signed s n
  rw [Bool.eq_not_of_ne hne, signed_not] at h
  omega

theorem signed_gap_of_sign (neg : Bool) (n d b : Nat) :
    (signed neg n - signed neg (bitsMag b) * d).natAbs = bitsGap n d b := by
  rw [bitsGap, signed_mul_natCast, ← Int.natCast_mul]
  cases neg with
  | false => rfl
  | true =>
    rw [signed_true, signed_true]
    omega

/-- With the other sign the two magnitudes add up. -/
theorem signed_gap_of_not_sign (neg : Bool) (n d b : Nat) :
    (signed neg n - signed (!neg) (bitsMag b) * d).natAbs = n + bitsMag b * d := by
  rw [signed_mul_natCast, signed_not]
  generalize bitsMag b * d = m
  cases neg with
  | false =>
    rw [signed_false, signed_false]
    omega
  | true =>
    rw [signed_true, signed_true]
    omega

/-- With the sign of the exact value a number is as far away as its magnitude is, and with the other sign it is farther, unless
one of the two is zero. -/
theorem bitsGap_le_signed_gap (neg : Bool) (n d : Nat) (x : Word) :
    bitsGap n d (f32Bits x) ≤ (signed neg n - f32Units x * d).natAbs ∧
    (bitsGap n d (f32Bits x) = (signed neg n - f32Units x * d).natAbs →
      f32Sign x = neg ∨ n = 0 ∨ bitsMag (f32Bits x) * d = 0) := by
  rw [f32Units_eq_signed]
  by_cases hs : f32Sign x = neg
  · rw [hs, signed_gap_of_sign]
    exact ⟨Nat.le_refl _, fun _ => .inl rfl⟩
  · rw [Bool.eq_not_of_ne hs, signed_gap_of_not_sign, bitsGap, ← Int.natCast_mul]
    omega

-- A rounded result -------------------------------------------------------------------------------------------------

theorem f32IsFinite_pack_round_iff (neg : Bool) (n d : Nat) :
    f32IsFinite (f32Pack neg (f32RoundBits n d)) = true ↔ f32RoundBits n d < 0x7F800000 := by
  rw [f32IsFinite_iff, f32Bits_pack (f32RoundBits_lt_two_pow n d)]

/-- A result that is rounded to a finite number is the nearest one to the exact value, and on a tie with another value its
fraction is even (43_read_mac R151, R152). -/
theorem pack_round_isNearest (hd : 0 < d) (x : Word) (hfin : f32IsFinite (f32Pack neg (f32RoundBits n d)) = true) :
    (signed neg n - f32Units (f32Pack neg (f32RoundBits n d)) * d).natAbs ≤ (signed neg n - f32Units x * d).natAbs ∧
    ((signed neg n - f32Units (f32Pack neg (f32RoundBits n d)) * d).natAbs = (signed neg n - f32Units x * d).natAbs →
      f32Units x * d = f32Units (f32Pack neg (f32RoundBits n d)) * d ∨
        f32Frac (f32Pack neg (f32RoundBits n d)) % 2 = 0) := by
  have hbits := f32RoundBits_lt_two_pow n d
  have hround := f32RoundBits_of_lt ((f32IsFinite_pack_round_iff neg n d).mp hfin)
  obtain ⟨hnear, htie⟩ := unboundedBits_isNearest (n := n) hd (f32Bits x)
  obtain ⟨hsign, hsame⟩ := bitsGap_le_signed_gap neg n d x
  have hzero : f32RoundBits n d = 0 ↔ 2 * n ≤ d := f32RoundBits_eq_zero_iff hd
  rw [f32Frac_eq_bits, f32Units_pack hbits, f32Bits_pack hbits, signed_gap_of_sign]
  rw [← hround] at hnear htie
  refine ⟨Nat.le_trans hnear hsign, fun heq => ?_⟩
  rcases htie (by omega) with hx | heven
  · rcases hsame (by omega) with hs | hn | h0
    · left
      rw [f32Units_eq_signed, hs, hx]
    · right
      have hround0 := hzero.mpr (by omega)
      omega
    · left
      rw [f32Units_eq_signed, ← hx, (Nat.mul_eq_zero.mp h0).resolve_right (by omega), signed_zero, signed_zero]
  · right
    omega

/-- An exact value that is a binary32 number other than zero is rounded to it (43_read_mac R155 `EXACT`). -/
theorem pack_round_of_exact (hd : 0 < d) (hx : f32IsFinite x = true) (h0 : f32Units x ≠ 0)
    (h : signed neg n = f32Units x * d) : f32Pack neg (f32RoundBits n d) = x := by
  have hmag : bitsMag (f32Bits x) ≠ 0 := fun hm => h0 (by rw [f32Units_eq_signed, hm, signed_zero])
  rw [f32Units_eq_signed, signed_mul_natCast] at h
  obtain ⟨hneg, hn⟩ := signed_inj (Nat.mul_pos (Nat.pos_of_ne_zero hmag) hd) h.symm
  have hfin := f32IsFinite_iff.mp hx
  rw [← hneg, ← hn, f32RoundBits_eq_min, unboundedBits_bitsMag hd, Nat.min_eq_left (Nat.le_of_lt hfin), f32Pack_sign_bits]

/-- From the threshold on a result is the infinity of its sign (43_read_mac R155; entry 9). -/
theorem pack_round_of_overflow (hd : 0 < d) (h : (2 ^ 128 - 2 ^ 103) * 2 ^ 149 * d ≤ n) :
    f32Pack neg (f32RoundBits n d) = f32Inf neg := by
  have hge := mt (f32RoundBits_lt_iff (n := n) hd).mp (Nat.not_lt.mpr h)
  have hle := f32RoundBits_le n d
  rw [f32Inf, show f32RoundBits n d = 0x7F800000 by omega]

-- The fraction, as another rounded result

/-- A fraction of a 31-bit denominator other than 0 is at least `2^-31`, far above the subnormals (43_read_mac R153). -/
theorem f32Exp_ofRat_ne_zero {n d : Nat} (h : n < d) (hn : n ≠ 0) (hd : d < 2 ^ 31) : f32Exp (f32OfRat n d) ≠ 0 := by
  have hmag : bitsMag 0x30000000 = 2 ^ 118 := by decide
  have hle : 0x30000000 ≤ unboundedBits (n * 2 ^ 149) d := by
    apply le_unboundedBits (by omega)
    rw [hmag]
    omega
  have hbits := f32Bits_pack (neg := false) (f32RoundBits_lt_two_pow (n * 2 ^ 149) d)
  rw [f32Exp_eq_bits, f32OfRat, hbits, f32RoundBits_eq_min]
  omega

/-- The fraction 0 is `+0.0` (43_read_mac R153). -/
theorem f32OfRat_zero {d : Nat} (hd : 0 < d) : f32OfRat 0 d = 0x00000000 := by
  rw [f32OfRat, Nat.zero_mul, (f32RoundBits_eq_zero_iff hd).mpr (Nat.zero_le _)]
  rfl

end

-- Multiplication ---------------------------------------------------------------------------------------------------

section
variable {nan a b : Word}

theorem f32Mul_of_nan (h : f32IsNan a = true ∨ f32IsNan b = true) : f32Mul nan a b = nan := by
  rw [f32Mul, if_pos (Bool.or_eq_true_iff.mpr h)]

theorem f32Mul_of_finite (ha : f32IsFinite a = true) (hb : f32IsFinite b = true) :
    f32Mul nan a b = f32Pack (f32Sign a != f32Sign b) (f32RoundBits (bitsMag (f32Bits a) * bitsMag (f32Bits b)) (2 ^ 149)) := by
  rw [f32Mul, f32IsNan_of_finite ha, f32IsNan_of_finite hb, f32IsInf_of_finite ha, f32IsInf_of_finite hb, if_neg (by decide),
    if_neg (by decide), f32Mag_eq_bitsMag, f32Mag_eq_bitsMag]

theorem f32Mul_of_inf (h : f32IsInf a = true ∨ f32IsInf b = true) (ha : f32IsNan a = false) (hb : f32IsNan b = false) :
    f32Mul nan a b = if f32IsZero a || f32IsZero b then nan else f32Inf (f32Sign a != f32Sign b) := by
  rw [f32Mul, ha, hb, if_neg (by decide), if_pos (Bool.or_eq_true_iff.mpr h)]

theorem f32Mul_comm (nan a b : Word) : f32Mul nan a b = f32Mul nan b a := by
  simp only [f32Mul, Bool.or_comm (f32IsNan a), Bool.or_comm (f32IsInf a), Bool.or_comm (f32IsZero a), bne_comm,
    Nat.mul_comm (f32Mag a)]

/-- The exact product of two finite numbers (43_read_mac R151). -/
theorem signed_product (a b : Word) :
    signed (f32Sign a != f32Sign b) (bitsMag (f32Bits a) * bitsMag (f32Bits b)) = f32Units a * f32Units b := by
  rw [f32Units_eq_signed, f32Units_eq_signed, signed_mul_signed]

/-- Law `MUL_ZERO` (43_read_mac R155). -/
theorem f32Mul_zero (ha : f32IsZero a = true) (hb : f32IsFinite b = true) : f32IsZero (f32Mul nan a b) = true := by
  rw [f32Mul_of_finite (f32IsFinite_of_zero ha) hb, f32IsZero_iff.mp ha, bitsMag_zero, Nat.zero_mul, f32IsZero_iff,
    f32Bits_pack (f32RoundBits_lt_two_pow _ _), f32RoundBits_eq_zero_iff (by decide)]
  exact Nat.zero_le _

-- Addition ---------------------------------------------------------------------------------------------------------

/-- The sign of the sum of two finite numbers (43_read_mac R152). -/
def sumSign (a b : Word) : Bool :=
  if f32Units a + f32Units b = 0 then f32Sign a && f32Sign b else decide (f32Units a + f32Units b < 0)

theorem f32Add_of_nan (h : f32IsNan a = true ∨ f32IsNan b = true) : f32Add nan a b = nan := by
  rw [f32Add, if_pos (Bool.or_eq_true_iff.mpr h)]

theorem f32Add_inf_left (ha : f32IsInf a = true) (hb : f32IsNan b = false) :
    f32Add nan a b = if f32IsInf b && f32Sign a != f32Sign b then nan else a := by
  rw [f32Add, f32IsNan_of_inf ha, hb, if_neg (by decide), if_pos ha]

theorem f32Add_inf_right (ha : f32IsFinite a = true) (hb : f32IsInf b = true) : f32Add nan a b = b := by
  rw [f32Add, f32IsNan_of_finite ha, f32IsNan_of_inf hb, f32IsInf_of_finite ha, if_neg (by decide), if_neg (by decide),
    if_pos hb]

theorem f32Add_inf_finite (ha : f32IsInf a = true) (hb : f32IsFinite b = true) : f32Add nan a b = a := by
  rw [f32Add_inf_left ha (f32IsNan_of_finite hb), f32IsInf_of_finite hb, Bool.false_and, if_neg (by decide)]

/-- The sum of two finite numbers is rounded once; an exact zero sum is a zero, and the rounding of 0 (43_read_mac R152). -/
theorem f32Add_of_finite (ha : f32IsFinite a = true) (hb : f32IsFinite b = true) :
    f32Add nan a b = f32Pack (sumSign a b) (f32RoundBits (f32Units a + f32Units b).natAbs 1) := by
  rw [f32Add, f32IsNan_of_finite ha, f32IsNan_of_finite hb, f32IsInf_of_finite ha, f32IsInf_of_finite hb, if_neg (by decide),
    if_neg (by decide), if_neg (by decide), sumSign]
  split
  next h0 => rw [h0, Int.natAbs_zero, (f32RoundBits_eq_zero_iff Nat.one_pos).mpr (by decide)]
  next => rfl

/-- The exact sum of two finite numbers (43_read_mac R152). -/
theorem signed_sum (a b : Word) : signed (sumSign a b) (f32Units a + f32Units b).natAbs = f32Units a + f32Units b := by
  rw [sumSign]
  split
  next h0 => rw [h0, Int.natAbs_zero, signed_zero]
  next =>
    by_cases hneg : f32Units a + f32Units b < 0
    · rw [decide_eq_true hneg, signed_true]
      omega
    · rw [decide_eq_false hneg, signed_false]
      omega

end

-- Zeros, infinities and NaNs as operands ---------------------------------------------------------------------------

section
variable {nan a b x y : Word}

/-- Only two negative zeros have an exact zero sum of negative sign (43_read_mac R152). -/
theorem negZeros_of_zero_sum (h0 : f32Units a + f32Units b = 0) (hs : sumSign a b = true) :
    a = 0x80000000 ∧ b = 0x80000000 := by
  rw [sumSign, if_pos h0, Bool.and_eq_true] at hs
  obtain ⟨hsa, hsb⟩ := hs
  have ha := f32Units_nonpos hsa
  have hb := f32Units_nonpos hsb
  exact ⟨eq_negZero_iff.mpr ⟨hsa, f32Units_eq_zero_iff.mp (by omega)⟩,
    eq_negZero_iff.mpr ⟨hsb, f32Units_eq_zero_iff.mp (by omega)⟩⟩

/-- Every other exact zero sum is `+0.0` (43_read_mac R152). -/
theorem f32Add_of_zero_sum (ha : f32IsFinite a = true) (hb : f32IsFinite b = true) (h0 : f32Units a + f32Units b = 0)
    (hne : ¬ (a = 0x80000000 ∧ b = 0x80000000)) : f32Add nan a b = 0x00000000 := by
  rw [f32Add_of_finite ha hb, h0, Int.natAbs_zero, (f32RoundBits_eq_zero_iff Nat.one_pos).mpr (by decide),
    Bool.of_not_eq_true (mt (negZeros_of_zero_sum h0) hne)]
  rfl

/-- Law `ADD_PZERO` (43_read_mac R155). -/
theorem f32Add_posZero (h : f32IsZero a = true) : f32Add nan 0x00000000 a = 0x00000000 :=
  f32Add_of_zero_sum (by decide) (f32IsFinite_of_zero h)
    (by rw [f32Units_eq_zero_iff.mpr h, f32Units_eq_zero_iff.mpr (by decide), Int.add_zero]) (fun h => absurd h.1 (by decide))

/-- Law `SUB_PZERO` (43_read_mac R155). -/
theorem f32Sub_posZero : f32Sub nan 0x00000000 0x00000000 = 0x00000000 := f32Add_posZero (by decide)

/-- Law `ADD_ZERO_ID` (43_read_mac R155): the exact sum is the operand. -/
theorem f32Add_zero (hx : f32IsFinite x = true) (hne : x ≠ 0x80000000) (hy : f32IsZero y = true) : f32Add nan x y = x := by
  have hfin := f32IsFinite_of_zero hy
  have hsum : f32Units x + f32Units y = f32Units x := by rw [f32Units_eq_zero_iff.mpr hy, Int.add_zero]
  by_cases h0 : f32Units x = 0
  · rw [f32Add_of_zero_sum hx hfin (hsum.trans h0) (fun h => hne h.1)]
    have hz := f32Units_eq_zero_iff.mp h0
    have hs : f32Sign x = false := Bool.of_not_eq_true (fun hs => hne (eq_negZero_iff.mpr ⟨hs, hz⟩))
    exact f32_ext hs.symm (f32IsZero_iff.mp hz).symm
  · rw [f32Add_of_finite hx hfin]
    exact pack_round_of_exact Nat.one_pos hx h0 ((signed_sum x y).trans (hsum.trans (Int.mul_one _).symm))

/-- Everything a sum can be: the NaN, an operand that is not finite, or the sum of two finite numbers (43_read_mac R152,
R154). -/
theorem f32Add_cases (nan a b : Word) : f32Add nan a b = nan ∨ (f32IsFinite a = false ∧ f32Add nan a b = a) ∨
    (f32IsFinite b = false ∧ f32Add nan a b = b) ∨ (f32IsFinite a = true ∧ f32IsFinite b = true) := by
  by_cases hop : f32IsNan a = true ∨ f32IsNan b = true
  · exact .inl (f32Add_of_nan hop)
  obtain ⟨hna, hnb⟩ := not_or.mp hop
  cases hfa : f32IsFinite a with
  | false =>
    rw [f32Add_inf_left ((f32_inf_or_nan hfa).resolve_right hna) (Bool.of_not_eq_true hnb)]
    split
    · exact .inl rfl
    · exact .inr (.inl ⟨rfl, rfl⟩)
  | true =>
    cases hfb : f32IsFinite b with
    | false => exact .inr (.inr (.inl ⟨rfl, f32Add_inf_right hfa ((f32_inf_or_nan hfb).resolve_right hnb)⟩))
    | true => exact .inr (.inr (.inr ⟨rfl, rfl⟩))

/-- Law `NOT_NZERO` (43_read_mac R155). -/
theorem f32Add_ne_negZero (hnan : f32IsNan nan = true) (hx : x ≠ 0x80000000) : f32Add nan x y ≠ 0x80000000 := by
  rcases f32Add_cases nan x y with h | ⟨-, h⟩ | ⟨hfy, h⟩ | ⟨hfx, hfy⟩
  · rw [h]
    rintro rfl
    exact absurd hnan (by decide)
  · rwa [h]
  · rw [h]
    rintro rfl
    exact absurd hfy (by decide)
  · have hbits := f32RoundBits_lt_two_pow (f32Units x + f32Units y).natAbs 1
    rw [f32Add_of_finite hfx hfy, ne_eq, eq_negZero_iff, f32Sign_pack hbits, f32IsZero_iff, f32Bits_pack hbits,
      f32RoundBits_eq_zero_iff Nat.one_pos]
    rintro ⟨hs, h0⟩
    exact hx (negZeros_of_zero_sum (by omega) hs).1

/-- Only finite operands have a finite sum (43_read_mac R154). -/
theorem finite_of_f32Add_finite (hnan : f32IsNan nan = true) (hfin : f32IsFinite (f32Add nan a b) = true) :
    f32IsFinite a = true ∧ f32IsFinite b = true := by
  rcases f32Add_cases nan a b with h | ⟨hfa, h⟩ | ⟨hfb, h⟩ | h
  · cases (h ▸ f32IsNan_of_finite hfin).symm.trans hnan
  · cases hfin.symm.trans (h ▸ hfa)
  · cases hfin.symm.trans (h ▸ hfb)
  · exact h

/-- An infinity times a number that is neither a zero nor a NaN (43_read_mac R151; entry 9). -/
theorem f32Mul_inf (ha : f32IsInf a = true) (hb : f32IsNan b = false) (hz : f32IsZero b = false) :
    f32Mul nan a b = if f32Sign a = f32Sign b then 0x7F800000 else 0xFF800000 := by
  rw [f32Mul_of_inf (.inl ha) (f32IsNan_of_inf ha) hb, f32IsZero_of_inf ha, hz, if_neg (by decide), f32Inf_eq_ite, ite_bne]

/-- A zero times an infinity is an invalid operation (43_read_mac R154). -/
theorem f32Mul_zero_inf (ha : f32IsZero a = true) (hb : f32IsInf b = true) : f32Mul nan a b = nan := by
  rw [f32Mul_of_inf (.inr hb) (f32IsNan_of_finite (f32IsFinite_of_zero ha)) (f32IsNan_of_inf hb), ha, Bool.true_or,
    if_pos rfl]

end

-- The words that READ reads ----------------------------------------------------------------------------------------

/-- What a function answers element by element is a map, when each of its answers is a function of the element. -/
theorem eq_map_of_forEach_eq_ok {α β : Type} {f : α → Except Fault β} {g : α → β} {as : List α} {bs : List β}
    (h : forEach f as = .ok bs) (hg : ∀ a b, f a = .ok b → b = g a) : bs = as.map g := by
  rw [forEach_eq_ok_iff] at h
  induction as generalizing bs with
  | nil => exact List.map_eq_nil_iff.mp h.symm
  | cons a as ih =>
    cases bs with
    | nil => cases h
    | cons b bs =>
      obtain ⟨hb, hbs⟩ := List.cons.inj h
      rw [List.map_cons, ← hg a b hb, ← ih hbs]

/-- One more sample and tap extend the sequential sum at its end (43_read_mac R147). -/
theorem macFrom_concat (nan acc x c : Word) {xs cs : List Word} (h : xs.length = cs.length) :
    macFrom nan acc (xs ++ [x]) (cs ++ [c]) = f32Add nan (macFrom nan acc xs cs) (f32Mul nan x c) := by
  induction xs generalizing acc cs with
  | nil =>
    obtain rfl := List.length_eq_zero_iff.mp h.symm
    rfl
  | cons x' xs ih =>
    cases cs with
    | nil => cases h
    | cons c' cs => exact ih _ (Nat.succ.inj h)

/-- The free value behind the NaN results of a READ and channel is a NaN (43_read_mac R154; entry 8). -/
theorem f32IsNan_channelNan (p : Params) (s : State) (c : Nat) : f32IsNan (channelNan p s c) = true := by
  rw [channelNan, nanOfDraw]
  split
  next h => exact h
  next => decide

end Sys2Proof.Machine

namespace Sys2Proof.Claims

open Sys2Proof Sys2Proof.Machine

section
variable {p : Params} {s : State} {c r n : Nat} {nan : Word} {xs cs : Nat → Word} {samples row out : List Word}

-- The frame that READ answers --------------------------------------------------------------------------------------

/-- The accumulator of the tap loop is the sequential sum (43_read_mac R147). -/
theorem mac_eq_seqSum (nan : Word) (xs cs : Nat → Word) (n : Nat) :
    mac nan ((List.range n).map xs) ((List.range n).map cs) = seqSum nan xs cs n := by
  induction n with
  | zero => rfl
  | succ n ih =>
    rw [List.range_succ, List.map_append, List.map_append, seqSum, ← ih]
    exact macFrom_concat nan 0 (xs n) (cs n) (by rw [List.length_map, List.length_map])

theorem coefRow_eq_tapAt (h : coefRow p s r = .ok row) : row = (List.range s.tapCount.toNat).map (tapAt s r) := by
  refine eq_map_of_forEach_eq_ok h (fun k w hw => ?_)
  obtain ⟨-, hread⟩ := memRead_eq_ok_iff.mp hw
  exact (congrArg (Option.getD · 0) hread).symm

theorem window_eq_sampleAt (hring : s.histLen = s.tapCount) (h : window p s c = .ok samples) :
    samples = (List.range s.tapCount.toNat).map (sampleAt s c) := by
  refine eq_map_of_forEach_eq_ok h (fun j w hw => ?_)
  obtain ⟨-, hread⟩ := memRead_eq_ok_iff.mp hw
  rw [histAddress, windowIndex, hring, Nat.add_sub_cancel] at hread
  exact (congrArg (Option.getD · 0) hread).symm

/-- Every output sample of READ is the interpolation of the two sequential sums (43_read_mac R145 to R148). -/
theorem outputFrame_eq_outputAt (hring : s.histLen = s.tapCount) (h : outputFrame p s = .ok out) :
    out = (List.range s.chCount.toNat).map (outputAt p s) := by
  unfold outputFrame at h
  split at h
  · cases h
  next low hlow =>
  split at h
  · cases h
  next high hhigh =>
  refine eq_map_of_forEach_eq_ok h (fun c w hw => ?_)
  unfold outputSample at hw
  split at hw
  · cases hw
  next samples hsamples =>
  rw [coefRow_eq_tapAt hlow, coefRow_eq_tapAt hhigh, window_eq_sampleAt hring hsamples, mac_eq_seqSum, mac_eq_seqSum] at hw
  exact (Except.ok.inj hw).symm

/-- The flags of a live, aligned block are `CFG_VALID` alone (10_state R23). -/
theorem leftFlags_of_aligned (hl : Live s) (ha : Aligned s) : leftFlags s = 0x00010000 := by
  obtain ⟨hv, hf⟩ := hl
  rw [leftFlags, hv, hf, decide_eq_false (Nat.not_le.mpr ha)]
  rfl

/-- The response header of READ on a live, aligned block (43_read_mac R145). -/
theorem rspHeader_read_of_aligned (hl : Live s) (ha : Aligned s) (hch : s.chCount.toNat < 65536) :
    rspHeader 0x3 .ok s s.chCount.toNat = 0x30010000 + s.chCount := by
  rw [rspHeader_eq_add _ _ _ hch, leftFlags_of_aligned hl ha, BitVec.ofNat_add, BitVec.ofNat_toNat, BitVec.setWidth_eq,
    BitVec.add_assoc, BitVec.add_comm s.chCount, ← BitVec.add_assoc]
  rfl

/-- READ of a live, aligned block, whole (43_read_mac R145). -/
theorem readWith_of_aligned (hp : p.ok) (h : Inv p s) (hl : Live s) (ha : Aligned s) :
    readWith p (plainBody []) s = .next
      (withRsp (frameWords s ((List.range s.chCount.toNat).map (outputAt p s))) { s with nanReads := s.nanReads + 1 }) := by
  have I := h.configured hl.1
  obtain ⟨-, -, -, hmax⟩ := hp
  obtain ⟨-, hch⟩ := I.channels
  rcases readEffect_of_configured I with ⟨hrow, -⟩ | ⟨-, out, hout, hlen, heff⟩
  · exact absurd ((numRows_le_indexHigh_iff I.rows.2 I.denominator_pos).mp hrow) (Nat.not_le.mpr ha)
  have hheader : rspHeader 0x3 .ok { s with nanReads := s.nanReads + 1 } s.chCount.toNat = 0x30010000 + s.chCount :=
    rspHeader_read_of_aligned (s := { s with nanReads := s.nanReads + 1 }) hl ha (show s.chCount.toNat < 65536 by omega)
  calc readWith p (plainBody []) s
      = readEffect p s := command_of_checks (protocolError_of_live (pay := []) hl)
    _ = .next (State.answer ((0x30010000 + s.chCount) :: out) { s with nanReads := s.nanReads + 1 }) := by
      rw [heff, respond_eq, hlen, hheader]
    _ = _ := by
      rw [outputFrame_eq_outputAt I.ringLength hout]
      rfl

/-- READ of a live, aligned block answers in each channel its interpolated sample. -/
theorem exists_read_frame (hp : p.ok) (h : Inv p s) (hl : Live s) (ha : Aligned s) :
    ∃ t out, readWith p (plainBody []) s = .next t ∧ t.rsp = s.rsp ++ frameWords s out ∧
      ∀ c, c < s.chCount.toNat → out[c]? = some (outputAt p s c) := by
  refine ⟨_, _, readWith_of_aligned hp h hl ha, rfl, fun c hc => ?_⟩
  rw [List.getElem?_map, List.getElem?_range hc]
  rfl

-- One channel of the frame -----------------------------------------------------------------------------------------

/-- The sum starts at `+0.0`, so it is never `-0.0` (43_read_mac R155 `NOT_NZERO`). -/
theorem seqSum_ne_negZero (hnan : f32IsNan nan = true) : seqSum nan xs cs n ≠ 0x80000000 := by
  induction n with
  | zero => exact (by decide : (0x00000000 : Word) ≠ 0x80000000)
  | succ n ih => exact f32Add_ne_negZero hnan ih

/-- Zero samples leave the sum at `+0.0`, whatever finite taps they meet (43_read_mac R156). -/
theorem seqSum_of_zeros (hx : ∀ k, k < n → f32IsZero (xs k) = true) (hc : ∀ k, k < n → f32IsFinite (cs k) = true) :
    seqSum nan xs cs n = 0x00000000 := by
  induction n with
  | zero => rfl
  | succ n ih =>
    rw [seqSum, ih (fun k hk => hx k (Nat.lt_succ_of_lt hk)) (fun k hk => hc k (Nat.lt_succ_of_lt hk))]
    exact f32Add_posZero (f32Mul_zero (hx n (Nat.lt_succ_self n)) (hc n (Nat.lt_succ_self n)))

/-- A tap of a sound block's table is a word of the generator (40_construct R101), finite when the table is. -/
theorem tapAt_finite (I : InstanceInv p s) (hfin : GenFinite p s) {k : Nat} (hr : r < s.numRows.toNat)
    (hk : k < s.tapCount.toNat) : f32IsFinite (tapAt s r k) = true := by
  have hlt : r * s.tapCount.toNat + k < s.numRows.toNat * s.tapCount.toNat := by
    have hrow : (r + 1) * s.tapCount.toNat ≤ s.numRows.toNat * s.tapCount.toNat := Nat.mul_le_mul_right _ hr
    rw [Nat.succ_mul] at hrow
    omega
  rw [tapAt, I.table, if_pos hlt]
  exact hfin _ hlt

/-- Both rows of an aligned block's selector are in the table (42_phase R141). -/
theorem lowRow_succ_lt (I : InstanceInv p s) (ha : Aligned s) : lowRow s + 1 < s.numRows.toNat :=
  Nat.lt_of_not_le (mt (numRows_le_indexHigh_iff I.rows.2 I.denominator_pos).mp (Nat.not_le.mpr ha))

/-- The fraction of a sound block is finite (42_phase R140). -/
theorem f32IsFinite_fraction (I : InstanceInv p s) : f32IsFinite (fraction s) = true :=
  f32IsFinite_of_le_one (f32OfRat_toNat (Nat.mod_lt _ I.denominator_pos)).2

/-- Two silent convolutions interpolate to `+0.0` (43_read_mac R156). -/
theorem outputAt_of_silence (I : InstanceInv p s) (ha : Aligned s) (hfin : GenFinite p s)
    (hzero : ∀ j, j < s.tapCount.toNat → f32IsZero (sampleAt s c j) = true) : outputAt p s c = 0x00000000 := by
  have hrow := lowRow_succ_lt I ha
  have hacc {r : Nat} (hr : r < s.numRows.toNat) : accumulator p s r c = 0x00000000 :=
    seqSum_of_zeros hzero (fun _ => tapAt_finite I hfin hr)
  rw [outputAt, hacc (Nat.lt_of_succ_lt hrow), hacc hrow, f32Sub_posZero, f32Mul_comm]
  exact f32Add_posZero (f32Mul_zero (by decide) (f32IsFinite_fraction I))

/-- A channel's samples are read from that channel's words of the ring (41_history R124). -/
theorem sampleAt_withHist {hist' : Memory} (hL : 0 < s.histLen.toNat) (hring : s.histLen = s.tapCount)
    (h : ∀ f, f < s.histLen.toNat →
      memoryRead hist' (f * s.chCount.toNat + c) = memoryRead s.hist (f * s.chCount.toNat + c)) :
    sampleAt { s with hist := hist' } c = sampleAt s c := by
  funext k
  exact congrArg (Option.getD · 0) (h _ (hring ▸ Nat.mod_lt _ (hring ▸ hL)))

theorem outputAt_withHist {hist' : Memory} (h : sampleAt { s with hist := hist' } c = sampleAt s c) :
    outputAt p { s with hist := hist' } c = outputAt p s c := by
  have hacc (r : Nat) : accumulator p { s with hist := hist' } r c = accumulator p s r c := by
    rw [accumulator, h]
    rfl
  have hrow : lowRow { s with hist := hist' } = lowRow s := rfl
  rw [outputAt, hrow, hacc, hacc]
  rfl

/-- With the fraction `+0.0` a finite difference drops out, and one that is not finite makes the output a NaN (43_read_mac
R159): the low convolution is finite when the difference is, and never `-0.0`. -/
theorem interpolate_posZero {low high : Word} (hnan : f32IsNan nan = true) (hlow : low ≠ 0x80000000) :
    (f32IsFinite (f32Sub nan high low) = true → interpolate nan 0x00000000 low high = low) ∧
    (f32IsFinite (f32Sub nan high low) = false → f32IsNan (interpolate nan 0x00000000 low high) = true) := by
  rw [interpolate]
  constructor
  · intro hd
    obtain ⟨-, hneg⟩ := finite_of_f32Add_finite hnan hd
    exact f32Add_zero ((f32IsFinite_neg low).symm.trans hneg) hlow (f32Mul_zero (by decide) hd)
  · intro hd
    have hmul : f32Mul nan 0x00000000 (f32Sub nan high low) = nan := by
      rcases f32_inf_or_nan hd with hinf | hnan'
      · exact f32Mul_zero_inf (by decide) hinf
      · exact f32Mul_of_nan (.inr hnan')
    rwa [hmul, f32Add_of_nan (.inr hnan)]

/-- The output at an integer table phase is the interpolation with the fraction `+0.0` (43_read_mac R159). -/
theorem outputAt_of_integer_phase (I : InstanceInv p s)
    (h0 : s.phase.toNat * (s.numRows.toNat - 1) % s.denominator.toNat = 0) (c : Nat) :
    outputAt p s c = interpolate (channelNan p s c) 0x00000000 (accumulator p s (lowRow s) c)
      (accumulator p s (lowRow s + 1) c) := by
  rw [outputAt, h0, f32OfRat_zero I.denominator_pos]
  rfl

end

end Sys2Proof.Claims

namespace Sys2Proof.Proofs

open Sys2Proof Sys2Proof.Machine Sys2Proof.Claims

/-- Settles O35: a sum is its exact value rounded once. -/
theorem sumIsNearestTiesToEven : Obligations.SumIsNearestTiesToEven := by
  intro nan a b x ha hb _ hfin
  rw [f32Add_of_finite ha hb] at hfin ⊢
  simpa only [signed_sum, Int.natCast_one, Int.mul_one] using pack_round_isNearest Nat.one_pos x hfin

/-- Settles O36: a product is its exact value rounded once. -/
theorem productIsNearestTiesToEven : Obligations.ProductIsNearestTiesToEven := by
  intro nan a b x ha hb _ hfin
  rw [f32Mul_of_finite ha hb] at hfin ⊢
  simpa only [signed_product, Int.natCast_pow, Int.cast_ofNat_Int] using pack_round_isNearest (Nat.two_pow_pos 149) x hfin

/-- Settles O37: the fraction is rounded once, to a pattern up to that of 1.0. -/
theorem fractionConversionIsNearestTiesToEven : Obligations.FractionConversionIsNearestTiesToEven := by
  intro n d x h _
  obtain ⟨-, hle⟩ := f32OfRat_toNat h
  have hfin := f32IsFinite_of_le_one hle
  have hunits : f32Units (f32OfRat n d) = f32Mag (f32OfRat n d) := f32Units_of_lt (Nat.lt_of_le_of_lt hle (by decide))
  obtain ⟨hnear, htie⟩ := pack_round_isNearest (neg := false) (Nat.zero_lt_of_lt h) x hfin
  rw [signed_false, Int.natCast_mul, Int.natCast_pow, Int.cast_ofNat_Int] at hnear htie
  refine ⟨hfin, ?_, ?_, ?_, f32Exp_ofRat_ne_zero h, hnear, htie⟩
  · rw [hunits]
    exact Int.mul_nonneg (Int.natCast_nonneg _) (Int.natCast_nonneg _)
  · rw [hunits]
    exact_mod_cast Nat.mul_le_mul_right d (f32Mag_le_one hle)
  · rintro rfl
    exact f32OfRat_zero h

/-- Settles O38: an exact value that is a binary32 number is the one rounded to. -/
theorem exactResultsAreAnsweredExactly : Obligations.ExactResultsAreAnsweredExactly := by
  intro nan a b r ha hb hr h0
  have hadd {c : Word} (hc : f32IsFinite c = true) (h : f32Units a + f32Units c = f32Units r) : f32Add nan a c = r := by
    rw [f32Add_of_finite ha hc]
    exact pack_round_of_exact Nat.one_pos hr h0 ((signed_sum a c).trans (h.trans (Int.mul_one _).symm))
  refine ⟨hadd hb, fun h => hadd ((f32IsFinite_neg b).trans hb) ?_, fun h => ?_⟩
  · rwa [f32Units_neg]
  · rw [f32Mul_of_finite ha hb]
    refine pack_round_of_exact (Nat.two_pow_pos 149) hr h0 ?_
    rw [signed_product, h, Int.natCast_pow, Int.cast_ofNat_Int]

/-- Settles O39: `unboundedBits_lt_iff` places the threshold for the rounding that sums and products share. -/
theorem overflowIsExactlyAtTheThreshold : Obligations.OverflowIsExactlyAtTheThreshold := by
  intro nan a b ha hb
  have hprod : (f32Units a * f32Units b).natAbs = bitsMag (f32Bits a) * bitsMag (f32Bits b) := by
    rw [← signed_product, natAbs_signed]
  rw [f32Add_of_finite ha hb, f32Mul_of_finite ha hb, f32IsFinite_pack_round_iff, f32IsFinite_pack_round_iff,
    f32RoundBits_lt_iff Nat.one_pos, f32RoundBits_lt_iff (Nat.two_pow_pos 149), Nat.mul_one, hprod]
  refine ⟨id, fun h => ?_, id, fun h => ?_⟩
  · have hne : f32Units a + f32Units b ≠ 0 := fun h0 => by
      rw [h0] at h
      exact absurd h (by decide)
    rw [pack_round_of_overflow Nat.one_pos (Nat.le_trans (Nat.le_of_eq (Nat.mul_one _)) h), f32Inf_eq_ite, sumSign, if_neg hne]
    exact ite_congr decide_eq_true_eq (fun _ => rfl) (fun _ => rfl)
  · rw [pack_round_of_overflow (Nat.two_pow_pos 149) h, f32Inf_eq_ite, ite_bne]

/-- Settles O40: laws `MUL_ZERO`, `ADD_PZERO` and `SUB_PZERO` by name. -/
theorem zeroOperandsGiveZeros : Obligations.ZeroOperandsGiveZeros :=
  fun nan _ _ ha hb => ⟨f32Mul_zero ha hb, f32Mul_comm nan _ _ ▸ f32Mul_zero ha hb, f32Add_posZero ha, f32Sub_posZero⟩

/-- Settles O41: law `ADD_ZERO_ID` by name. -/
theorem addingZeroGivesBackTheOperand : Obligations.AddingZeroGivesBackTheOperand :=
  fun _ _ _ => f32Add_zero

/-- Settles O42: law `NOT_NZERO` by name. -/
theorem sumIsNotNegativeZero : Obligations.SumIsNotNegativeZero :=
  fun _ _ _ => f32Add_ne_negZero

/-- Settles O43: a zero sum has the sign of `sumSign`, and a zero product the exclusive-or of the signs. -/
theorem zeroResultsHaveTheirSigns : Obligations.ZeroResultsHaveTheirSigns := by
  refine ⟨fun nan => ⟨?_, f32Add_posZero (by decide)⟩, fun _ _ _ => f32Add_of_zero_sum, fun nan a b ha hb hz => ?_⟩
  · rw [f32Add_of_finite (by decide) (by decide)]
    decide
  · rw [f32Mul_of_finite ha hb, f32IsZero_iff, f32Bits_pack (f32RoundBits_lt_two_pow _ _)] at hz
    rw [f32Mul_of_finite ha hb, hz, f32Pack_zero_eq_ite, ite_bne]

/-- Settles O44: the free value is a NaN, and each invalid operation answers it. -/
theorem invalidOperationsGiveANan : Obligations.InvalidOperationsGiveANan := by
  refine ⟨f32IsNan_channelNan P, fun nan a b h => ⟨f32Add_of_nan h, f32Add_of_nan ?_, f32Mul_of_nan h⟩,
    fun nan a b ha hb => ⟨f32Mul_zero_inf ha hb, (f32Mul_comm nan b a).trans (f32Mul_zero_inf ha hb)⟩, fun nan a ha => ?_⟩
  · rwa [f32IsNan_neg]
  · rw [f32Sub, f32Add_inf_left ha (f32IsNan_of_inf ((f32IsInf_neg a).trans ha)), f32IsInf_neg, ha, f32Sign_neg, Bool.true_and,
      if_pos (by cases f32Sign a <;> rfl)]

/-- Settles O54: sums and differences keep an infinite operand, and products take the exclusive-or of the signs. -/
theorem infinityOperandsGiveInfinities : Obligations.InfinityOperandsGiveInfinities := by
  intro nan a b ha
  have hnan := f32IsNan_of_inf ha
  refine ⟨fun hb => ⟨f32Add_inf_finite ha hb, f32Add_inf_right hb ha,
    f32Add_inf_finite ha ((f32IsFinite_neg b).trans hb), ?_⟩, ?_, fun hb hne => ?_,
    fun hb hz => ⟨f32Mul_inf ha hb hz, (f32Mul_comm nan b a).trans (f32Mul_inf ha hb hz)⟩⟩
  · exact (f32Add_inf_right hb ((f32IsInf_neg a).trans ha)).trans (f32Neg_of_inf ha)
  · rw [f32Add_inf_left ha hnan, bne_self_eq_false, Bool.and_false, if_neg (by decide)]
  · have hsign : f32Sign a ≠ f32Sign b := fun hs => hne (by rw [← f32Inf_sign ha, hs, f32Inf_sign hb])
    rw [f32Sub, f32Add_inf_left ha (f32IsNan_of_inf ((f32IsInf_neg b).trans hb)), f32Sign_neg, Bool.eq_not_of_ne hsign,
      bne_self_eq_false, Bool.and_false, if_neg (by decide)]

/-- Settles O24: `readWith_of_aligned` at the machine's parameters. -/
theorem readAnswersTheInterpolatedFrame : Obligations.ReadAnswersTheInterpolatedFrame :=
  fun _ => readWith_of_aligned Config.params_ok

/-- Settles O26: both convolutions of a silent channel are `+0.0`. -/
theorem silentChannelReadsPositiveZero : Obligations.SilentChannelReadsPositiveZero := by
  refine ⟨fun _ _ => rfl, fun p s c hp h hl ha hfin hc hzero => ?_⟩
  obtain ⟨t, out, ht, hrsp, hout⟩ := exists_read_frame hp h hl ha
  exact ⟨t, out, ht, hrsp, (hout c hc).trans (congrArg some (outputAt_of_silence (h.configured hl.1) ha hfin hzero))⟩

/-- Settles O27: the output is a function of the channel's own samples, the table and the free value of the READ and channel. -/
theorem channelOutputDependsOnItsOwnChannelOnly : Obligations.ChannelOutputDependsOnItsOwnChannelOnly := by
  refine ⟨fun _ _ => rfl, fun p s hist' c hp h h' hl ha hc hsame => ?_⟩
  have I := h.configured hl.1
  obtain ⟨t, out, ht, hrsp, hout⟩ := exists_read_frame hp h hl ha
  obtain ⟨t', out', ht', hrsp', hout'⟩ := exists_read_frame hp h' hl ha
  have hw := outputAt_withHist (p := p) (sampleAt_withHist (Nat.zero_lt_of_lt I.cursorInRing) I.ringLength hsame)
  exact ⟨t, t', out, out', _, _, ht, ht', hrsp, hrsp', hout c hc, (hout' c hc).trans (congrArg some hw), rfl, fun _ => rfl⟩

/-- Settles O28: the fraction is `+0.0`, and the low accumulator is never `-0.0`. -/
theorem integerTablePhaseExcludesTheHighRow : Obligations.IntegerTablePhaseExcludesTheHighRow := by
  refine ⟨fun _ _ => rfl, fun p s c hp h hl ha hc h0 => ?_⟩
  obtain ⟨t, out, ht, hrsp, hout⟩ := exists_read_frame hp h hl ha
  have hnan := f32IsNan_channelNan p s c
  refine ⟨t, out, _, ht, hrsp, hout c hc, ?_⟩
  rw [outputAt_of_integer_phase (h.configured hl.1) h0]
  exact interpolate_posZero hnan (seqSum_ne_negZero hnan)

end Sys2Proof.Proofs
end

section
/-! PROOFS of the family 44_system: the common checks of the commands that execute in every state, the register map, and what
NOP, RDREG and RESET answer. -/

namespace Sys2Proof.Claims

open Sys2Proof Sys2Proof.Machine

-- The common checks of the commands that execute in every state ----------------------------------------------------

section
variable {s : State} {b : CmdBody}

/-- A command that executes in every state is refused for its header or for its payload's length, and for nothing else
(60_exceptions R191). -/
theorem protocolError_nothing (ua : Bool) (n : Nat) (b : CmdBody) (s : State) : protocolError .nothing ua n b s =
    if b.rsv ≠ 0 ∨ ua = false ∧ b.arg ≠ 0 then some .errIllegal
    else if b.pay.length ≠ n then some .errLength
    else none := rfl

/-- A command that executes in every state, whole: its two checks in the order of 60_exceptions R191, then its effect.
`Illegal` is the header check in the command's own terms: only RDREG uses `ARG` (30_encoding R79). -/
theorem command_nothing {opc : BitVec 4} {ua : Bool} {n : Nat} {eff : Result} {t : State} {Illegal : Prop} [Decidable Illegal]
    (hill : (b.rsv ≠ 0 ∨ ua = false ∧ b.arg ≠ 0) ↔ Illegal) (heff : eff = .next t) :
    command opc .nothing ua n b s eff = .next
      (if Illegal then refusal opc.toNat 1 s
      else if b.pay.length ≠ n then refusal opc.toNat 2 s
      else t) := by
  have hcheck := protocolError_nothing ua n b s
  have herror {e : Status} (he : protocolError .nothing ua n b s = some e) :
      command opc .nothing ua n b s eff = .next (refusal opc.toNat (statusCode e).toNat s) := by
    rw [command_of_error he, answer_header_eq_refusal]
  split
  next hhead => exact herror (e := .errIllegal) (hcheck.trans (if_pos (hill.mpr hhead)))
  next hhead =>
  rw [if_neg (mt hill.mp hhead)] at hcheck
  split
  next hlen => exact herror (e := .errLength) (hcheck.trans (if_pos hlen))
  next hlen =>
    rw [if_neg hlen] at hcheck
    exact (command_of_checks hcheck).trans heff

-- Successful responses ---------------------------------------------------------------------------------------------

/-- An `OK` response, whole: the header is the opcode, the payload's length and the flags (30_encoding R73). -/
theorem respond_ok (opc : BitVec 4) {pay : List Word} (hpay : pay.length < 65536) (s : State) : respond opc .ok pay s =
    .next (withRsp ((BitVec.ofNat 32 (opc.toNat * 2 ^ 28 + pay.length) + leftFlags s) :: pay) s) := by
  have hok : (statusCode .ok).toNat = 0 := rfl
  rw [respond_eq, rspHeader_eq_add _ _ _ hpay, hok, Nat.zero_mul, Nat.add_zero]
  rfl

/-- NOP answers with the flags alone, since its opcode and its payload's length are 0 (44_system R170). -/
theorem respond_nop (s : State) : respond 0x0 .ok [] s = .next (withRsp [leftFlags s] s) := by
  have hheader : BitVec.ofNat 32 ((0x0 : BitVec 4).toNat * 2 ^ 28 + ([] : List Word).length) + leftFlags s = leftFlags s :=
    BitVec.zero_add _
  rw [respond_ok 0x0 (by decide), hheader]

/-- RESET answers with the flags of the reset state, which are all 0 (44_system R171, 10_state R42). -/
theorem respond_reset (s : State) :
    respond 0x7 .ok [] (destroyInstance s) = .next (withRsp [0x70000000] (destroyInstance s)) :=
  respond_ok 0x7 (by decide) (destroyInstance s)

-- The register map -------------------------------------------------------------------------------------------------

/-- `STATUS` is the flag bits of a response header, moved down to bits 2:0 (10_state R37). -/
theorem leftFlags_shift (s : State) : leftFlags s >>> 16 = statusWord s := by
  apply BitVec.eq_of_toNat_eq
  rw [BitVec.toNat_ushiftRight, leftFlags_toNat, Nat.shiftRight_eq_div_pow, Nat.mul_div_cancel _ (Nat.two_pow_pos 16),
    statusWord, toNat_append_eq_add]
  simp

/-- `FAULT_CAUSE` is read zero-extended (10_state R33). -/
theorem ofNat_faultCause (s : State) : BitVec.ofNat 32 s.faultCause.toNat = 0#28 ++ s.faultCause := by
  apply BitVec.eq_of_toNat_eq
  rw [toNat_append_eq_add, BitVec.toNat_ofNat, Nat.mod_eq_of_lt (Nat.lt_trans s.faultCause.isLt (by decide))]
  simp

/-- RDREG reads the register map of 10_state R33. -/
theorem readRegister_eq_registerValue (index : BitVec 8) (s : State) :
    readRegister P index s = registerValue index.toNat s := by
  unfold readRegister registerValue
  rw [leftFlags_shift, ofNat_faultCause]
  generalize index.toNat = n
  split
  case h_17 => simp (disch := assumption) only [if_neg]
  all_goals rfl

/-- RDREG of a register answers it (44_system R172). -/
theorem rdregEffect_of_register {w : Word} (h : registerValue b.arg.toNat s = some w) :
    rdregEffect P b s = .next (withRsp [0x60000001 + leftFlags s, w] s) := by
  rw [rdregEffect, readRegister_eq_registerValue, h]
  exact respond_ok 0x6 (pay := [w]) (by simp) s

/-- RDREG of a reserved index answers `ERR_REG` (60_exceptions R190). -/
theorem rdregEffect_of_reserved (h : registerValue b.arg.toNat s = none) :
    rdregEffect P b s = .next (refusal 6 8 s) := by
  rw [rdregEffect, readRegister_eq_registerValue, h]
  exact congrArg _ (answer_header_eq_refusal 6 .errReg s)

end

end Sys2Proof.Claims

namespace Sys2Proof.Proofs

open Sys2Proof Sys2Proof.Machine Sys2Proof.Claims

/-- Settles O12: past the common checks NOP responds (`respond_nop`). -/
theorem nopFollowsItsRule : Obligations.NopFollowsItsRule :=
  fun _ s => command_nothing (by simp) (respond_nop s)

/-- Settles O13: past the common checks the index is that of a register or reserved. -/
theorem rdregFollowsItsRule : Obligations.RdregFollowsItsRule := by
  intro b s
  cases hreg : registerValue b.arg.toNat s with
  | none => exact command_nothing (by simp) (rdregEffect_of_reserved hreg)
  | some w => exact command_nothing (by simp) (rdregEffect_of_register hreg)

/-- Settles O14: past the common checks RESET destroys the instance and responds (`respond_reset`). -/
theorem resetFollowsItsRule : Obligations.ResetFollowsItsRule :=
  fun _ s => command_nothing (by simp) (respond_reset s)

end Sys2Proof.Proofs
end

section
/-! PROOFS of the family 60_exceptions: what each refusal answers and in which order the checks are made, that an error
answer changes nothing else, and that no step stops. -/

namespace Sys2Proof.Claims

open Sys2Proof Sys2Proof.Machine

-- The common checks of every command -------------------------------------------------------------------------------

/-- In which states a command executes (30_encoding R77). -/
def requirement : Instr → Requires
  | .config _ => .noInstance
  | .push _ | .read _ | .advance _ | .consume _ => .liveInstance
  | _ => .nothing

/-- Only RDREG uses the field `ARG` (30_encoding R79). -/
def usesArg : Instr → Bool
  | .rdreg _ => true
  | _ => false

section
variable {i : Instr} {s : State}

/-- A header spells a command when its opcode is not reserved and its fields `RSV` and `ARG` are legal (30_encoding R79). -/
theorem spellsCommand_iff : i.spellsCommand = true ↔
    (¬ ∃ opc b, i = .reserved opc b) ∧ ¬ (i.body.rsv ≠ 0 ∨ usesArg i = false ∧ i.body.arg ≠ 0) := by
  cases i with
  | reserved opc b => simp [Instr.spellsCommand]
  | _ b => simp [Instr.spellsCommand, Instr.body, usesArg]

/-- Every command but the reserved opcodes makes the common checks and then has its own effect. -/
theorem exec_eq_command (hi : ¬ ∃ opc b, i = .reserved opc b) (s : State) : ∃ eff,
    exec i s = command i.opcode (requirement i) (usesArg i) (expectedLen i s) i.body s eff := by
  cases i with
  | reserved opc b => exact absurd ⟨opc, b, rfl⟩ hi
  | _ b => exact ⟨_, rfl⟩

/-- A command that fails a common check is refused with that check's status (60_exceptions R181). -/
theorem exec_eq_refusal (hi : ¬ ∃ opc b, i = .reserved opc b) {e : Status}
    (he : protocolError (requirement i) (usesArg i) (expectedLen i s) i.body s = some e) :
    exec i s = .next (refusal i.opcode.toNat (statusCode e).toNat s) := by
  obtain ⟨eff, hexec⟩ := exec_eq_command hi s
  rw [hexec, command_of_error he, answer_header_eq_refusal]

/-- A header that spells no command is refused before every other check (60_exceptions R183, R191). -/
theorem exec_of_not_spellsCommand (hi : i.spellsCommand = false) (s : State) :
    exec i s = .next (refusal i.opcode.toNat 1 s) := by
  by_cases hres : ∃ opc b, i = .reserved opc b
  · obtain ⟨opc, b, rfl⟩ := hres
    exact congrArg _ (answer_header_eq_refusal opc .errIllegal s)
  · have hhead : i.body.rsv ≠ 0 ∨ usesArg i = false ∧ i.body.arg ≠ 0 :=
      Classical.byContradiction fun hlegal => Bool.eq_false_iff.mp hi (spellsCommand_iff.mpr ⟨hres, hlegal⟩)
    exact exec_eq_refusal hres (e := .errIllegal) (if_pos hhead)

theorem refusedAsFaulted_of_isWork (hw : isWork i = true) : refusedAsFaulted (requirement i) s = s.fault := by
  cases i with
  | config b | push b | read b | advance b | consume b => rfl
  | _ b => cases hw

theorem refusedByState_of_isWork (hw : isWork i = true) :
    refusedByState (requirement i) s = true ↔ s.cfgValid ≠ neededValid i := by
  cases i with
  | config b | push b | read b | advance b | consume b => simp [requirement, refusedByState, neededValid]
  | _ b => cases hw

/-- The common checks of a work command with a legal header, in the order of 60_exceptions R191. -/
theorem protocolError_of_isWork (hi : i.spellsCommand = true) (hw : isWork i = true) :
    protocolError (requirement i) (usesArg i) (expectedLen i s) i.body s =
      if s.fault = true then some .errFaulted
      else if s.cfgValid ≠ neededValid i then some .errState
      else if i.body.pay.length ≠ expectedLen i s then some .errLength
      else none := by
  rw [protocolError, if_neg (spellsCommand_iff.mp hi).2]
  simp only [refusedAsFaulted_of_isWork hw, refusedByState_of_isWork hw]

/-- A command whose effect only responds only responds. -/
theorem command_onlyResponds {opc : BitVec 4} {req : Requires} {ua : Bool} {n : Nat} {b : CmdBody} {eff : Result}
    (heff : ∃ ws, eff = .next (s.answer ws)) : ∃ ws, command opc req ua n b s eff = .next (s.answer ws) := by
  rcases command_cases opc req ua n b s eff with ⟨e, -, hc⟩ | ⟨-, hc⟩
  · exact ⟨_, hc⟩
  · obtain ⟨ws, heff⟩ := heff
    exact ⟨ws, hc.trans heff⟩

theorem rdregEffect_onlyResponds (p : Params) (b : CmdBody) (s : State) : ∃ ws, rdregEffect p b s = .next (s.answer ws) := by
  unfold rdregEffect
  split
  · exact ⟨_, rfl⟩
  · exact ⟨_, rfl⟩

end

-- Error answers ----------------------------------------------------------------------------------------------------

/-- The field `ST` stands at bits 27:24 of a response header (30_encoding R73). -/
theorem rspHeader_status (opc : BitVec 4) (st : Status) (s : State) (n : Nat) :
    (rspHeader opc st s n).toNat / 2 ^ 24 % 16 = (statusCode st).toNat := by
  have hst := (statusCode st).isLt
  have hfl := (flagBits s).isLt
  have hn := (BitVec.ofNat 16 n).isLt
  rw [rspHeader, toNat_append_eq_add, toNat_append_eq_add, toNat_append_eq_add, toNat_append_eq_add]
  omega

theorem statusCode_eq_seven_iff (st : Status) : (statusCode st).toNat = 7 ↔ st = .faultInvariant := by
  cases st with
  | _ => decide

/-- If the outcome of a command in the state `s` is a next state, its response ends the command in a state that has had no
response added and, unless the status is `OK`, is `s` but for the fault that `FAULT_INVARIANT` records (60_exceptions R181,
R193). -/
def AnswersPrecisely (s : State) (r : Result) : Prop :=
  ∀ t, r = .next t → ∃ opc st out u, t = State.answer (rspHeader opc st u out.length :: out) u ∧ u.rsp = s.rsp ∧
    (st ≠ .ok → u = if st = .faultInvariant then { s with fault := true, faultCause := 1 } else s)

section
variable {s u : State} {opc : BitVec 4} {out : List Word}

theorem AnswersPrecisely.of_ok (hrsp : u.rsp = s.rsp) : AnswersPrecisely s (respond opc .ok out u) := by
  intro t ht
  cases ht
  exact ⟨opc, .ok, out, u, rfl, hrsp, fun hok => absurd rfl hok⟩

theorem AnswersPrecisely.of_error {st : Status} (hst : st ≠ .faultInvariant) :
    AnswersPrecisely s (raiseError opc st out s) := by
  intro t ht
  cases ht
  exact ⟨opc, st, out, s, rfl, rfl, fun _ => (if_neg hst).symm⟩

theorem AnswersPrecisely.of_enterFault : AnswersPrecisely s (enterFault opc s) := by
  intro t ht
  cases ht
  exact ⟨opc, .faultInvariant, [], _, rfl, rfl, fun _ => rfl⟩

theorem AnswersPrecisely.of_fault (f : Fault) : AnswersPrecisely s (.fault f) := fun _ ht => by cases ht

theorem AnswersPrecisely.of_orStop {α : Type} {x : Except Fault α} {k : α → Result}
    (hk : ∀ a, x = .ok a → AnswersPrecisely s (k a)) : AnswersPrecisely s (orStop x k) := by
  intro t ht
  obtain ⟨a, ha, ht⟩ := orStop_eq_next_iff.mp ht
  exact hk a ha t ht

/-- The common errors are no `FAULT_INVARIANT`, so a command answers precisely when its effect does. -/
theorem AnswersPrecisely.of_command {req : Requires} {ua : Bool} {n : Nat} {b : CmdBody} {eff : Result}
    (heff : AnswersPrecisely s eff) : AnswersPrecisely s (command opc req ua n b s eff) := by
  unfold command
  split
  next e he =>
    have hne : e ≠ .faultInvariant := by
      rcases protocolError_cases he with rfl | rfl | rfl | rfl
      all_goals decide
    exact .of_error hne
  next => exact heff

variable (p : Params) (b : CmdBody)

theorem configEffect_answersPrecisely : AnswersPrecisely s (configEffect p b s) := by
  unfold configEffect
  split
  · exact .of_error (by decide)
  · refine .of_orStop (fun u hu => .of_ok ?_)
    rw [buildInstance_eq_ok hu]
    rfl

theorem pushEffect_answersPrecisely : AnswersPrecisely s (pushEffect p b s) := by
  unfold pushEffect
  split
  · exact .of_fault _
  · exact .of_orStop (fun u hu => .of_ok (show u.rsp = s.rsp from memWriteWords_rsp hu))

theorem readEffect_answersPrecisely : AnswersPrecisely s (readEffect p s) := by
  unfold readEffect
  split
  · exact .of_fault _
  split
  · exact .of_enterFault
  split
  · exact .of_fault _
  · exact .of_orStop (fun _ _ => .of_ok rfl)

theorem advanceEffect_answersPrecisely : AnswersPrecisely s (advanceEffect s) := by
  unfold advanceEffect
  split
  · exact .of_error (by decide)
  split
  · exact .of_fault _
  · exact .of_ok rfl

theorem consumeEffect_answersPrecisely : AnswersPrecisely s (consumeEffect s) := by
  unfold consumeEffect
  split
  · exact .of_error (by decide)
  · exact .of_ok rfl

theorem rdregEffect_answersPrecisely : AnswersPrecisely s (rdregEffect p b s) := by
  unfold rdregEffect
  split
  · exact .of_ok rfl
  · exact .of_error (by decide)

end

/-- Every command answers precisely, whatever state it starts in. -/
theorem exec_answersPrecisely (i : Instr) (s : State) : AnswersPrecisely s (exec i s) := by
  cases i with
  | nop b => exact .of_command (.of_ok rfl)
  | config b => exact .of_command (configEffect_answersPrecisely P b)
  | push b => exact .of_command (pushEffect_answersPrecisely P b)
  | read b => exact .of_command (readEffect_answersPrecisely P)
  | advance b => exact .of_command advanceEffect_answersPrecisely
  | consume b => exact .of_command consumeEffect_answersPrecisely
  | rdreg b => exact .of_command (rdregEffect_answersPrecisely P b)
  | reset b => exact .of_command (.of_ok rfl)
  | reserved opc b => exact .of_error (by decide)

-- The mask of failed checks ----------------------------------------------------------------------------------------

/-- The bits of the mask do not overlap, so their disjunction is their sum (60_exceptions R186). -/
theorem or_maskBits_eq_sum : ∀ c0 c1 c2 c3 c4 c5 c6 : Bool,
    maskBit c0 0 ||| maskBit c1 1 ||| maskBit c2 2 ||| maskBit c3 3 ||| maskBit c4 4 ||| maskBit c5 5 ||| maskBit c6 6 =
      BitVec.ofNat 32 ((if c0 then 1 else 0) + (if c1 then 2 else 0) + (if c2 then 4 else 0) + (if c3 then 8 else 0)
        + (if c4 then 16 else 0) + (if c5 then 32 else 0) + (if c6 then 64 else 0)) := by decide

/-- The mask that CONFIG answers is the sum of 60_exceptions R186. -/
theorem configErrors_eq_configMask (inR outR ch taps cut : Word) :
    configErrors P [inR, outR, ch, taps, cut] = BitVec.ofNat 32 (configMask inR outR ch taps) := by
  rw [configErrors, or_maskBits_eq_sum]
  simp only [decide_eq_true_eq, payInt, payWord, List.getD_cons_zero, List.getD_cons_succ, ne_eq, BitVec.ofNat_eq_ofNat,
    lowBits_eq_zero_iff, configMask]

/-- The header of a failed CONFIG: neither `CFG_VALID` nor `FAULT` is set, and one word follows (30_encoding R73). -/
theorem rspHeader_errConfig {s : State} (hv : s.cfgValid = false) (hf : s.fault = false) :
    rspHeader 0x1 .errConfig s 1 = 0x14000001 := by
  have hflags : leftFlags s = 0 := by
    rw [leftFlags, hv, hf]
    rfl
  rw [rspHeader_eq_add _ _ _ (by decide), hflags]
  rfl

-- The fault --------------------------------------------------------------------------------------------------------

/-- The header of the fault's response: all three flags are set (60_exceptions R193). -/
theorem rspHeader_faultInvariant {s : State} (hv : s.cfgValid = true) (hph : s.denominator.toNat ≤ s.phase.toNat) :
    rspHeader 0x3 .faultInvariant { s with fault := true, faultCause := 1 } 0 = 0x37070000 := by
  have hflags : leftFlags { s with fault := true, faultCause := 1 } = rspFlags true true true := by
    rw [leftFlags, hv, decide_eq_true hph]
    rfl
  rw [rspHeader_eq_add _ _ _ (by decide), hflags]
  rfl

end Sys2Proof.Claims

namespace Sys2Proof.Proofs

open Sys2Proof Sys2Proof.Machine Sys2Proof.Claims

/-- Settles O17: the status of the header in the response stream is that of the precise answer. -/
theorem errorsArePrecise : Obligations.ErrorsArePrecise := by
  intro i s t h out ht hrsp hst
  obtain ⟨opc, st, out', u, rfl, hu, hprecise⟩ := exec_answersPrecisely i s t ht
  have hh : rspHeader opc st u out'.length = h := by
    rw [State.answer_rsp, hu, List.append_cancel_left_eq] at hrsp
    exact (List.cons.inj hrsp).1
  rw [← hh, rspHeader_status] at hst ⊢
  have hne : st ≠ .ok := by
    rintro rfl
    exact hst rfl
  obtain rfl := hprecise hne
  simp only [statusCode_eq_seven_iff]
  by_cases h7 : st = .faultInvariant
  · simp only [if_pos h7]
    rfl
  · simp only [if_neg h7]
    rfl

/-- Settles O19: the common checks pass, and the mask of the failed checks is not 0. -/
theorem failedConfigBuildsNothing : Obligations.FailedConfigBuildsNothing := by
  intro inR outR ch taps cut s hv hf hmask
  have hok : protocolError .noInstance false 5 (plainBody [inR, outR, ch, taps, cut]) s = none :=
    protocolError_eq_none_iff.mpr ⟨rfl, .inr rfl, hf, hv, rfl⟩
  have hne : configErrors P [inR, outR, ch, taps, cut] ≠ 0 := by
    rwa [ne_eq, BitVec.ofNat_eq_ofNat, configErrors_eq_zero_iff, ← configMask_eq_zero_iff]
  calc exec (.config (plainBody [inR, outR, ch, taps, cut])) s
      = configEffect P (plainBody [inR, outR, ch, taps, cut]) s := command_of_checks hok
    _ = raiseError 0x1 .errConfig [configErrors P [inR, outR, ch, taps, cut]] s := if_pos hne
    _ = .next (withRsp [0x14000001, BitVec.ofNat 32 (configMask inR outR ch taps)] s) := by
      rw [raiseError_eq, List.length_singleton, rspHeader_errConfig hv hf, configErrors_eq_configMask]
      rfl

/-- Settles O48: of the things a step does only running a command could stop, and from a state with the invariant every command
answers (`exec_answersOnce`). -/
theorem noStepStops : Obligations.NoStepStops := by
  intro s h
  rcases step_cases s with ⟨-, hs⟩ | ⟨es, -, hs⟩ | ⟨es, -, hs⟩ | ⟨w, es, r, -, -, -, hs⟩ | ⟨w, es, i, rest, -, -, hd, hs⟩
  · exact ⟨_, hs⟩
  · exact ⟨_, hs⟩
  · exact ⟨_, hs⟩
  · exact ⟨_, hs⟩
  · cases rest_eq_nil_of_decode_append h.decoderWaits hd
    have hinv := h.withBuffers (pc := []) (fun _ _ hok => by cases hok) es s.rsp s.nanReads
    obtain ⟨t, -, -, ht, -⟩ := exec_answersOnce i hinv
    exact ⟨t, hs.trans ht⟩

/-- Settles O15: an illegal header is the first of the common checks, and the step runs the presented command. -/
theorem unspelledHeadersAnswerIllegal : Obligations.UnspelledHeadersAnswerIllegal :=
  fun _ s hi => ⟨exec_of_not_spellsCommand hi s,
    fun hwf => (step_presentWords_encode hwf s).trans (exec_of_not_spellsCommand hi _)⟩

/-- Settles O16: the first check that fails decides. -/
theorem workCommandsAreCheckedInOrder : Obligations.WorkCommandsAreCheckedInOrder := by
  intro i s hi hw
  have hres := (spellsCommand_iff.mp hi).1
  have hcheck := protocolError_of_isWork (s := s) hi hw
  refine ⟨fun hf => ?_, fun hf hv => ?_, fun hf hv hlen => ?_⟩
  · exact exec_eq_refusal hres (e := .errFaulted) (hcheck.trans (if_pos hf))
  · rw [hf, if_neg (by decide), if_pos hv] at hcheck
    exact exec_eq_refusal hres (e := .errState) hcheck
  · rw [hf, if_neg (by decide), if_neg (not_not_intro hv), if_pos hlen] at hcheck
    exact exec_eq_refusal hres (e := .errLength) hcheck

/-- Settles O51: a header that spells no command and a work command are refused, NOP and RDREG only respond, and so does RESET
unless its common checks pass. -/
theorem faultFreezesTheStateUntilReset : Obligations.FaultFreezesTheStateUntilReset := by
  intro i s hf
  have onlyResponds : (∃ ws, exec i s = .next (s.answer ws)) → ∃ t, exec i s = .next t ∧ (t = { s with rsp := t.rsp } ∨
      i = .reset (plainBody []) ∧ t.fault = false) := fun ⟨_, hx⟩ => ⟨_, hx, .inl rfl⟩
  by_cases hi : i.spellsCommand = true
  · cases i with
    | config b | push b | read b | advance b | consume b =>
      exact onlyResponds ⟨_, (workCommandsAreCheckedInOrder _ s hi rfl).1 hf⟩
    | nop b => exact onlyResponds (command_onlyResponds ⟨_, rfl⟩)
    | rdreg b => exact onlyResponds (command_onlyResponds (rdregEffect_onlyResponds P b s))
    | reset b =>
      rcases command_cases 0x7 .nothing false 0 b s (respond 0x7 .ok [] (destroyInstance s)) with ⟨e, -, hc⟩ | ⟨hok, hc⟩
      · exact onlyResponds ⟨_, hc⟩
      · obtain ⟨hrsv, harg, -, -, hlen⟩ := protocolError_eq_none_iff.mp hok
        obtain ⟨rsv, arg, pay⟩ := b
        obtain rfl : rsv = 0 := hrsv
        obtain rfl : arg = 0 := by simpa using harg
        obtain rfl : pay = [] := List.length_eq_zero_iff.mp hlen
        exact ⟨_, hc, .inr ⟨rfl, rfl⟩⟩
    | reserved opc b => cases hi
  · exact onlyResponds ⟨_, exec_of_not_spellsCommand (Bool.eq_false_iff.mpr hi) s⟩

/-- Settles O25: the high row is beyond the table, so READ enters the fault. -/
theorem unalignedReadEntersTheFault : Obligations.UnalignedReadEntersTheFault := by
  intro s h hl ha
  have I := h.configured hl.1
  have hph : s.denominator.toNat ≤ s.phase.toNat := Nat.le_of_not_lt ha
  have hrow := (numRows_le_indexHigh_iff I.rows.2 I.denominator_pos).mpr hph
  rcases readEffect_of_configured I with ⟨-, heff⟩ | ⟨hlt, -⟩
  · calc exec (.read (plainBody [])) s
        = readEffect P s := command_of_checks (protocolError_of_live (pay := []) hl)
      _ = .next (withRsp [0x37070000] { s with fault := true, faultCause := 1 }) := by
        rw [heff, enterFault_eq, rspHeader_faultInvariant hl.1 hph]
        rfl
  · exact absurd hrow (Nat.not_le.mpr hlt)

end Sys2Proof.Proofs
end

section
/-! PROOFS of the family 70_reset_and_hazards: the hardware reset, the order of PUSH and the phase commands, the answers under
the driver protocol, and the delivery of every response to a driver that accepts them. -/

namespace Sys2Proof.Machine

-- Streams and the decoder's buffer across commands ------------------------------------------------------------------

/-- With a response word waiting and nothing but offers to choose from the block takes no event (70_reset_and_hazards R219). -/
theorem nextEvent_of_offers {s : State} {ws : List Word} (hr : s.rsp ≠ []) (hp : s.port = ws.map .cmdWord) :
    nextEvent s = none := by
  rcases nextEvent_cases s with ⟨hn, -⟩ | ⟨w, es, hr', -, -⟩ | ⟨ws', e, es, hp', he, -, -⟩
  · exact hn
  · exact absurd hr' hr
  · have hmem : e ∈ ws.map .cmdWord := by
      rw [← hp, hp']
      exact List.mem_append_right _ List.mem_cons_self
    obtain ⟨w, -, rfl⟩ := List.mem_map.mp hmem
    cases he

theorem deliveredWord_of_cmdWord {s : State} {w : Word} {es : List PortEvent} (h : nextEvent s = some (.cmdWord w, es)) :
    deliveredWord s = none := by
  simp [deliveredWord, h]

/-- A sequence of commands that answers is its first command and then the others (20_memory R60). -/
theorem execAll_cons_eq_next_iff {i : Instr} {cmds : List Instr} {s t : State} :
    execAll (i :: cmds) s = .next t ↔ ∃ u, exec i s = .next u ∧ execAll cmds u = .next t := by
  rw [execAll]
  cases exec i s with
  | next u => simp
  | fault f => simp
  | refused r => simp

/-- A sequence of commands adds its response words and otherwise does the same whatever the two streams hold. -/
theorem execAll_streamFree (cmds : List Instr) : StreamFree (execAll cmds) := by
  induction cmds with
  | nil =>
    intro s t h
    cases h
    exact ⟨[], (List.append_nil _).symm, fun port rsp => by rw [List.append_nil]; rfl⟩
  | cons i cmds ih =>
    intro s t h
    obtain ⟨u, hu, ht⟩ := execAll_cons_eq_next_iff.mp h
    obtain ⟨out, hout, hi⟩ := exec_streamFree i s u hu
    obtain ⟨out', hout', hcmds⟩ := ih u t ht
    refine ⟨out ++ out', by rw [hout', hout, List.append_assoc], fun port rsp => ?_⟩
    rw [← List.append_assoc]
    exact execAll_cons_eq_next_iff.mpr ⟨_, hi port rsp, hcmds port (rsp ++ out)⟩

/-- From a state with the invariant a sequence of commands answers (60_exceptions R180). -/
theorem exists_execAll_eq_next {s : State} (h : Inv Config.params s) (cmds : List Instr) : ∃ t, execAll cmds s = .next t := by
  induction cmds generalizing s with
  | nil => exact ⟨s, rfl⟩
  | cons i cmds ih =>
    obtain ⟨u, -, -, hu, -⟩ := Claims.exec_answersOnce i h
    obtain ⟨t, ht⟩ := ih (exec_keeps_inv h hu)
    exact ⟨t, execAll_cons_eq_next_iff.mpr ⟨u, hu, ht⟩⟩

/-- No command leaves words in an empty decoder: RESET empties it, and the others do not touch it (10_state R41). -/
theorem exec_keeps_partialCmd_nil {i : Instr} {s t : State} (hs : s.partialCmd = []) (ht : exec i s = .next t) :
    t.partialCmd = [] := by
  obtain ⟨-, hwrites⟩ := Proofs.stateIsWrittenOnlyByItsCommands i s t ht
  cases i with
  | config b =>
    obtain ⟨-, -, hpc, -⟩ := hwrites
    exact hpc.trans hs
  | push b => rw [hwrites.1]; exact hs
  | reset b =>
    obtain ⟨ws, rfl⟩ | ⟨-, ht⟩ := command_eq_next ht
    · exact hs
    · cases ht
      rfl
  | _ => rw [hwrites]; exact hs

theorem execAll_keeps_partialCmd_nil {cmds : List Instr} {s t : State} (hs : s.partialCmd = []) (ht : execAll cmds s = .next t) :
    t.partialCmd = [] := by
  induction cmds generalizing s with
  | nil =>
    cases ht
    exact hs
  | cons i cmds ih =>
    obtain ⟨u, hu, ht⟩ := execAll_cons_eq_next_iff.mp ht
    exact ih (exec_keeps_partialCmd_nil hs hu) ht

/-- The words of a command without its last ones hold no complete command (30_encoding R75, R85). -/
theorem decode_error_of_encode_eq_append {i : Instr} {ws rest : List Word} (hi : i.wf = true) (hne : rest ≠ [])
    (he : encode i = ws ++ rest) : ∃ r, decode ws = .error r := by
  cases hd : decode ws with
  | error r => exact ⟨r, rfl⟩
  | ok jr =>
    obtain ⟨j, rest'⟩ := jr
    obtain ⟨hj, hws⟩ := encode_of_decode hd
    have hwhole : decode (encode i) = .ok (j, rest' ++ rest) := by
      rw [he, hws, List.append_assoc, decode_encode_append hj]
    have hnone : rest' ++ rest = [] := (Prod.mk.inj (Except.ok.inj (hwhole.symm.trans (decode_encode hi)))).2
    exact absurd (List.append_eq_nil_iff.mp hnone).2 hne

end Sys2Proof.Machine

namespace Sys2Proof.Claims

open Sys2Proof Sys2Proof.Machine

-- The order of PUSH and the phase commands ---------------------------------------------------------------------------

section
variable {s : State}

/-- CONSUME of a live block that is not aligned (42_phase R133). -/
theorem runsToPhase_consume_of_not_aligned (hl : Live s) (ha : ¬ Aligned s) :
    RunsToPhase [.consume (plainBody [])] s (s.phase.toNat - s.denominator.toNat) :=
  runsToPhase_consume hl (Nat.sub_add_cancel (Nat.le_of_not_lt ha)).symm

/-- A run of one command is its execution, which answers one `OK` header. -/
theorem RunsToPhase.exec_singleton {i : Instr} {ph : Nat} (hr : RunsToPhase [i] s ph) :
    ∃ h : Word, exec i s = .next (withRsp [h] (s.withPhase ph)) ∧ h.toNat / 2 ^ 24 % 16 = 0 := by
  obtain ⟨hs, hx, hlen, hok⟩ := hr
  obtain ⟨h, rfl⟩ := List.length_eq_one_iff.mp hlen
  obtain ⟨t, ht, hnil⟩ := execAll_cons_eq_next_iff.mp hx
  cases hnil
  exact ⟨h, ht, hok h List.mem_cons_self⟩

/-- A command that moves the phase alone, and moves it alike before and after a PUSH, commutes with the PUSH but for the
response stream: PUSH moves no element that the other reads or writes (70_reset_and_hazards R217). -/
theorem push_commutes_of_runsToPhase {pay : List Word} {i : Instr} {ph : Nat} (h : Inv P s) (hl : Live s)
    (hlen : pay.length = s.chCount.toNat) (hr : RunsToPhase [i] s ph)
    (hr' : ∀ u, exec (.push (plainBody pay)) s = .next u → RunsToPhase [i] u ph) :
    ∃ t u, execAll [.push (plainBody pay), i] s = .next t ∧ execAll [i, .push (plainBody pay)] s = .next u ∧
      { t with rsp := [] } = { u with rsp := [] } := by
  have hpush := exec_push_of_live h hl hlen
  obtain ⟨w, hi, -⟩ := hr.exec_singleton
  obtain ⟨w', hi', -⟩ := (hr' _ hpush).exec_singleton
  have hpush' := exec_push_of_live (s := withRsp [w] (s.withPhase ph)) (exec_keeps_inv h hi) hl hlen
  exact ⟨_, _, execAll_cons_eq_next_iff.mpr ⟨_, hpush, execAll_cons_eq_next_iff.mpr ⟨_, hi', rfl⟩⟩,
    execAll_cons_eq_next_iff.mpr ⟨_, hi, execAll_cons_eq_next_iff.mpr ⟨_, hpush', rfl⟩⟩, rfl⟩

-- The status of the two other answers of the protocol ----------------------------------------------------------------

theorem push_header_status (s : State) : (0x20000000 + leftFlags s).toNat / 2 ^ 24 % 16 = 0 := by
  have hheader : rspHeader 0x2 .ok s 0 = 0x20000000 + leftFlags s := rspHeader_eq_add 0x2 .ok s (by decide)
  rw [← hheader, rspHeader_status]
  rfl

theorem read_header_status (h : Inv P s) (hl : Live s) (ha : Aligned s) :
    (0x30010000 + s.chCount).toNat / 2 ^ 24 % 16 = 0 := by
  obtain ⟨-, hch⟩ := (h.configured hl.1).channels
  obtain ⟨-, -, -, hmax⟩ : P.ok := Config.params_ok
  rw [← rspHeader_read_of_aligned hl ha (by omega), rspHeader_status]
  rfl

end

-- Runs that deliver response words -----------------------------------------------------------------------------------

/-- Some number of steps leads from `s` to `u`, and the response words that move to the driver in them are `out`. -/
def Reaches (s : State) (out : List Word) (u : State) : Prop := ∃ k, runTaking k s = some (u, out)

section
variable {s t u : State} {out out' : List Word}

theorem Reaches.refl (s : State) : Reaches s [] s := ⟨0, rfl⟩

theorem Reaches.of_step (hs : step s = .next t) (hr : Reaches t out u) :
    Reaches s ((deliveredWord s).toList ++ out) u := by
  obtain ⟨k, hk⟩ := hr
  refine ⟨k + 1, ?_⟩
  simp only [runTaking, hs, hk, Option.map_some]

theorem Reaches.trans (hr : Reaches s out t) (hr' : Reaches t out' u) : Reaches s (out ++ out') u := by
  obtain ⟨k, hk⟩ := hr
  induction k generalizing s out with
  | zero =>
    cases hk
    exact hr'
  | succ k ih =>
    rw [runTaking] at hk
    split at hk
    next v hv =>
      obtain ⟨⟨t', out''⟩, hk', heq⟩ := Option.map_eq_some_iff.mp hk
      cases heq
      rw [List.append_assoc]
      exact .of_step hv (ih hk')
    next => cases hk

/-- A step that takes a command word delivers nothing. -/
theorem Reaches.of_cmdWord {w : Word} {es : List PortEvent} (hr : s.rsp = []) (hp : s.port = .cmdWord w :: es)
    (hs : step s = .next t) (ht : Reaches t out u) : Reaches s out u := by
  have hreach := Reaches.of_step hs ht
  rwa [deliveredWord_of_cmdWord (nextEvent_cmdWord hr hp)] at hreach

/-- The words of a command that are still to come are taken one by one, and the last runs it (30_encoding R70). -/
theorem reaches_of_last_words {i : Instr} {ws : List Word} {es : List PortEvent} (hi : i.wf = true) (hne : ws ≠ [])
    (he : encode i = s.partialCmd ++ ws) (hr : s.rsp = []) (hp : s.port = offers ws ++ es)
    (hx : exec i { s with port := es, partialCmd := [] } = .next t) : Reaches s [] t := by
  induction ws generalizing s with
  | nil => exact absurd rfl hne
  | cons w ws ih =>
    have hn := nextEvent_cmdWord hr hp
    rw [List.append_cons] at he
    by_cases hws : ws = []
    · subst hws
      have hd : decode (s.partialCmd ++ [w]) = .ok (i, []) := by
        rw [List.append_nil] at he
        rw [← he, decode_encode hi]
      exact .of_cmdWord hr hp ((step_of_command hn hd).trans hx) (.refl t)
    · obtain ⟨r, hd⟩ := decode_error_of_encode_eq_append hi hws he
      exact .of_cmdWord hr hp (step_of_partial hn hd) (ih hws he hr rfl hx)

/-- A command presented to a block that has answered everything is executed (20_memory R54, R60). -/
theorem reaches_of_command {i : Instr} (hi : i.wf = true) (hpc : s.partialCmd = []) (hr : s.rsp = [])
    (hx : exec i s = .next t) (es : List PortEvent) :
    Reaches { s with port := offers (encode i) ++ es } [] { t with port := es } := by
  have hself : { s with partialCmd := [] } = s := by rw [← hpc]
  rw [← hself] at hx
  exact reaches_of_last_words hi (List.cons_ne_nil _ _) (congrArg (· ++ encode i) hpc).symm hr rfl (exec_withPort hx es)

/-- As many acceptances as response words wait take them all, in front of the words that stay offered meanwhile
(20_memory R54, 70_reset_and_hazards R219). -/
theorem reaches_of_rspTaken (s : State) (ws out : List Word) (m : Nat) :
    Reaches (s.withStreams (offers ws ++ List.replicate (out.length + m) .rspTaken) out) out
      (s.withStreams (offers ws ++ List.replicate m .rspTaken) []) := by
  induction out with
  | nil =>
    rw [List.length_nil, Nat.zero_add]
    exact .refl _
  | cons w out ih =>
    rw [List.length_cons, Nat.succ_add, List.replicate_succ]
    obtain ⟨hs, hw⟩ := Proofs.responseWordsLeaveInOrder.1
      (s.withStreams (offers ws ++ .rspTaken :: List.replicate (out.length + m) .rspTaken) (w :: out)) ws _ rfl
      (.inr (List.cons_ne_nil w out))
    have hreach := Reaches.of_step hs ih
    rwa [hw] at hreach

/-- Commands presented to a block that has answered everything, with at least as many acceptances behind them as they give
response words, are executed and their responses delivered: a command's words are taken, then its response words, then the
other commands run (20_memory R60). -/
theorem reaches_of_execAll {cmds : List Instr} {n : Nat} (hwf : ∀ i ∈ cmds, i.wf = true) (hpc : s.partialCmd = [])
    (hr : s.rsp = []) (hx : execAll cmds s = .next t) (hn : t.rsp.length ≤ n) :
    Reaches { s with port := offers (cmds.flatMap encode) ++ List.replicate n .rspTaken } t.rsp
      (t.withStreams (List.replicate (n - t.rsp.length) .rspTaken) []) := by
  induction cmds generalizing s t n with
  | nil =>
    cases hx
    rw [hr]
    exact .refl _
  | cons i cmds ih =>
    obtain ⟨hi, hwf⟩ := List.forall_mem_cons.mp hwf
    obtain ⟨v, hv, hx⟩ := execAll_cons_eq_next_iff.mp hx
    obtain ⟨out, hout, hstreams⟩ := execAll_streamFree cmds v t hx
    rw [hout, List.length_append] at hn ⊢
    obtain ⟨m, rfl⟩ := Nat.exists_eq_add_of_le (Nat.le_of_add_right_le hn)
    have hport : offers ((i :: cmds).flatMap encode) = offers (encode i) ++ offers (cmds.flatMap encode) := List.map_append
    have hrest := ih (s := v.withStreams [] []) (t := t.withStreams [] out) (n := m) hwf
      (show v.partialCmd = [] from exec_keeps_partialCmd_nil hpc hv) rfl (hstreams [] []) (Nat.le_of_add_le_add_left hn)
    rw [hport, List.append_assoc, Nat.add_sub_add_left]
    exact (reaches_of_command hi hpc hr hv _).trans ((reaches_of_rspTaken v _ v.rsp m).trans hrest)

end

end Sys2Proof.Claims

namespace Sys2Proof.Proofs

open Sys2Proof Sys2Proof.Machine Sys2Proof.Claims

/-- Settles O53: the commands answer from a state with the invariant, and `reaches_of_execAll` presents them. -/
theorem presentedCommandsAreExecutedAndAnswered : Obligations.PresentedCommandsAreExecutedAndAnswered := by
  intro s cmds h hpc hr hwf
  obtain ⟨t, ht⟩ := exists_execAll_eq_next h cmds
  refine ⟨t, ht, fun n hn => ?_⟩
  obtain ⟨k, hk⟩ := reaches_of_execAll hwf hpc hr ht hn
  have hpc' : t.partialCmd = [] := execAll_keeps_partialCmd_nil hpc ht
  have hnowords : ∀ w, .cmdWord w ∉ List.replicate (n - t.rsp.length) PortEvent.rspTaken :=
    fun w hw => by cases List.eq_of_mem_replicate hw
  exact ⟨k, _, hk, rfl, hnowords, hpc'⟩

/-- Settles O23: ADVANCE and CONSUME run to the same phase before and after the PUSH, which moves none of phase, numerator and
denominator. -/
theorem pushCommutesWithThePhaseCommands : Obligations.PushCommutesWithThePhaseCommands := by
  intro pay i s h hl hlen hi
  have hpush := exec_push_of_live h hl hlen
  have h' := exec_keeps_inv h hpush
  rcases hi with ⟨ha, rfl⟩ | ⟨ha, rfl⟩
  · refine push_commutes_of_runsToPhase h hl hlen (runsToPhase_advance h hl ha) (fun u hu => ?_)
    cases hpush.symm.trans hu
    exact runsToPhase_advance h' hl ha
  · refine push_commutes_of_runsToPhase h hl hlen (runsToPhase_consume_of_not_aligned hl ha) (fun u hu => ?_)
    cases hpush.symm.trans hu
    exact runsToPhase_consume_of_not_aligned (s := (pushedState pay s).answer _) hl ha

/-- Settles O34, command by command: what each leaves on a live block says its status and keeps the two flags. -/
theorem protocolCommandsAnswerOk : Obligations.ProtocolCommandsAnswerOk := by
  intro s h hl
  refine ⟨fun pay hlen => ?_, fun ha => ?_, fun ha => ?_, fun ha => ?_⟩
  · exact ⟨_, _, exec_push_of_live h hl hlen, rfl, push_header_status s, hl⟩
  · obtain ⟨w, hx, hok⟩ := (runsToPhase_consume_of_not_aligned hl ha).exec_singleton
    exact ⟨_, w, hx, rfl, hok, hl⟩
  · exact ⟨_, _, _, readWith_of_aligned Config.params_ok h hl ha, rfl, read_header_status h hl ha, by simp, hl⟩
  · obtain ⟨w, hx, hok⟩ := (runsToPhase_advance h hl ha).exec_singleton
    exact ⟨_, w, hx, rfl, hok, hl⟩

/-- Settles O10: the pulse is the event taken, behind the offers that wait. -/
theorem hardwareResetGivesTheResetState : Obligations.HardwareResetGivesTheResetState :=
  fun _ _ _ hp hw => step_of_rst (nextEvent_action hp rfl hw)

/-- Settles O52: among offers alone a block with a response word waiting finds no event to take. -/
theorem blockWaitsForResponseAcceptance : Obligations.BlockWaitsForResponseAcceptance :=
  fun _ _ hr hp => step_of_no_event (nextEvent_of_offers hr hp)

end Sys2Proof.Proofs
end
